-- ==== Sys2Proof/Word.lean ====
section
/-! DEFINITION. The block's word type: every quantity it moves is a byte or a sequence of bytes
(spec/00_scope.md R11, spec/20_memory.md R42). -/

namespace Sys2Proof

/-- A byte, an unsigned 8-bit value (R11). -/
abbrev Byte := BitVec 8

end Sys2Proof
end

