-- ==== Sys2Proof/Config.lean ====
section
/-! DEFINITION. What is fixed when the block is built: the named constants of spec/00_scope.md R9, the
open parameters of R10 (of FW_REVISION, its values), and the one free value, the timestamp draw of
spec/42_resync.md R145. None of it is part of the spec's `S` (spec/10_state.md R29). -/

namespace Sys2Proof.Config

/-- Header byte, first byte of every frame in both directions (R9). -/
abbrev HDR : Byte := 0xFF

/-- Outbound frame length in bytes (R9). -/
abbrev OUT_LEN : Nat := 16

/-- Inbound frame length in bytes, and the reassembler's window width (R9). -/
abbrev IN_LEN : Nat := 4

/-- Maximum outbound payload length in bytes (R9). -/
abbrev MAX_PAYLOAD : Nat := 12

/-- Outbound bytes before the checksum (R9). -/
abbrev OUT_BODY : Nat := 15

/-- Outbound padding byte (R9). -/
abbrev PAD : Byte := 0x00

/-- Outbound opcode width in bits, unsigned (R9). -/
abbrev OPCODE_W : Nat := 16

/-- Inbound sample value width in bits, unsigned (R9). -/
abbrev VALUE_W : Nat := 16

/-- Checksum width in bits; sums are taken modulo `2 ^ CSUM_W` (R9). -/
abbrev CSUM_W : Nat := 8

/-- Bytes dropped per failed candidate (R9). -/
abbrev DROP : Nat := 1

/-- The two length equations that R9 states of its constants. -/
theorem lengths_agree : OUT_LEN = 1 + 2 + MAX_PAYLOAD + 1 ∧ IN_LEN = 1 + 2 + 1 ∧ OUT_BODY = 1 + 2 + MAX_PAYLOAD :=
  ⟨rfl, rfl, rfl⟩

/-- Which codes stand for timestamps besides the one that every `TS` has. It has no body, so nothing in
Lean tells how many values `TS` has (spec/92_eei_decisions.md D4; log entry 5). -/
opaque isTsCode : Nat → Bool

/-- The parameter `TS` of R10, an opaque type: a timestamp is one of a set of codes that is itself open, and
no definition of the model looks inside one. Any type with a value whose values can be written out is of
this form. DESIGN CHOICE, safe (log entry 5): equality is decidable, so that a state stays plain data. -/
structure Ts where
  code : Option { n : Nat // isTsCode n = true }
  deriving DecidableEq, Repr, Inhabited

/-- FREE VALUE (R145, spec/93_implementation_defined.md I4): the timestamp that the wall clock supplies at
the n-th draw of a run. It has no body: no law holds between draws. DESIGN CHOICE, unsafe for a claim that
compares the stamps of two runs (log entry 5). -/
opaque drawTs : Nat → Ts

/-- What the application layer means by an opcode value; opaque to the block (R10). -/
structure OpcodeMeaning where
  tag : Nat
  deriving DecidableEq, Repr, Inhabited

/-- The parameter `OPCODE_TABLE` of R10. No rule reads it (R79), and no definition of the model does.
DESIGN CHOICE, safe (log entry 12). -/
opaque opcodeTable : BitVec OPCODE_W → OpcodeMeaning

/-- The values of the parameter `FW_REVISION` of R10: the firmware build that the wire must match. The
parameter itself reaches every instruction with the state (`Machine.State.fwRevision`). -/
inductive FwRevision where
  /-- The main-line 16-byte outbound, 4-byte inbound shape, the only one specified (R3, R6). -/
  | mainLine
  /-- Any other source revision; its frame shapes are not specified (R6). -/
  | other (build : Nat)
  deriving DecidableEq, Repr

/-- Whether a revision's frame shapes are those of spec/30_encoding.md R60 and R63 (R6). -/
def FwRevision.specified : FwRevision → Bool
  | .mainLine => true
  | .other _ => false

end Sys2Proof.Config
end

