-- ==== Sys2Proof/Syntax.lean ====
section
/-! DEFINITION. The instructions: one constructor per row of spec/opcode_table.json. -/

namespace Sys2Proof

/-- The rows of spec/opcode_table.json, in the table's order. -/
inductive Instr where
  /-- ENC (spec/40_encoder.md R100): encode a command. The payload may have any length (R74). -/
  | enc (opcode : BitVec Config.OPCODE_W) (payload : List Byte)
  /-- RXC (spec/42_resync.md R140): receive a chunk of any length, in wire order (R75). -/
  | rxc (chunk : List Byte)
  /-- OPEN (spec/43_connection.md R170): connection-open. -/
  | openConn
  /-- CLOSE (spec/43_connection.md R171): connection-close. -/
  | closeConn
  /-- RESET (spec/43_connection.md R172). -/
  | reset
  /-- reserved op-select code 000 (spec/30_encoding.md R78). -/
  | reserved000
  /-- reserved op-select code 110 (spec/30_encoding.md R78). -/
  | reserved110
  /-- reserved op-select code 111 (spec/30_encoding.md R78). -/
  | reserved111
  /-- RXB (spec/30_encoding.md R83, spec/42_resync.md R150): one received byte; stands for RXC of it. -/
  | rxb (x : Byte)
  /-- OUTBOUND_FRAME (spec/30_encoding.md R60, R70): a byte sequence offered as an outbound wire frame. -/
  | outboundFrame (bytes : List Byte)
  /-- DEC (spec/41_decoder.md R120): a candidate given to the FrameDecoder as a unit. -/
  | dec (candidate : List Byte)
  deriving DecidableEq, Repr

end Sys2Proof
end

