-- ==== Sys2Proof/WellFormed.lean ====
section
/-! DEFINITION. Which instructions have the widths the spec gives them. An over-long ENC payload is well
formed: R74 says that it is not refused at decode. -/

namespace Sys2Proof

/-- The two width rules on operands: a candidate has exactly `IN_LEN` bytes (spec/41_decoder.md R123, R235)
and an outbound frame exactly `OUT_LEN` (spec/30_encoding.md R60). Every other operand is typed, and any
value of its type is legal (R74, R75, R77, R79). -/
def Instr.wf : Instr → Bool
  | .enc _ _ => true
  | .rxc _ => true
  | .openConn => true
  | .closeConn => true
  | .reset => true
  | .reserved000 => true
  | .reserved110 => true
  | .reserved111 => true
  | .rxb _ => true
  | .outboundFrame bytes => bytes.length == Config.OUT_LEN
  | .dec candidate => candidate.length == Config.IN_LEN

/-- An instruction whose operands have the widths the spec gives them. -/
abbrev WellFormed (i : Instr) : Prop := i.wf = true

end Sys2Proof
end

