-- ==== Sys2Proof/Decode.lean ====
section
/-! DEFINITION. Operation records and their op-select map (spec/30_encoding.md R73–R78), the moves a host
can make, the decoder from a move to an instruction, and the encoder back. The bit-vector view of frames
is R69's packing, byte 0 most significant. -/

namespace Sys2Proof

/-! ### Operation records -/

/-- The typed operands of an operation record (R73). The spec gives operands no bit layout. -/
inductive RecordOperands where
  | none
  | command (opcode : BitVec Config.OPCODE_W) (payload : List Byte)
  | chunk (bytes : List Byte)
  deriving DecidableEq, Repr

/-- One operation record `(op, operands)` with its 3-bit op-select code (R73). DESIGN CHOICE (log entry 2). -/
structure OpRecord where
  op : BitVec 3
  operands : RecordOperands
  deriving DecidableEq, Repr

/-- What the host can put to the model in one move. -/
inductive HostMove where
  /-- An operation record, issued after the previous operation ended (R73, spec/60_exceptions.md R212). -/
  | issue (record : OpRecord)
  /-- An operation record begun while another operation is in progress (spec/70_reset_and_hazards.md
  R233). DESIGN CHOICE (log entry 10). -/
  | overlap (record : OpRecord)
  /-- A unit-level call of the FrameDecoder (R76, R235); not an operation of the block. -/
  | tryDecode (candidate : List Byte)
  /-- A byte sequence offered as an outbound wire frame (R60); not an operation of the block. -/
  | wireFrame (bytes : List Byte)
  deriving DecidableEq, Repr

/-- Whether a move breaks the host's duty never to overlap operations (spec/42_resync.md R155). -/
def HostMove.overlaps : HostMove → Bool
  | .overlap _ => true
  | .issue _ | .tryDecode _ | .wireFrame _ => false

/-- The op-select codes of R73. -/
abbrev OpSelect.reserved000 : BitVec 3 := 0b000#3
abbrev OpSelect.enc : BitVec 3 := 0b001#3
abbrev OpSelect.rxc : BitVec 3 := 0b010#3
abbrev OpSelect.openConn : BitVec 3 := 0b011#3
abbrev OpSelect.closeConn : BitVec 3 := 0b100#3
abbrev OpSelect.reset : BitVec 3 := 0b101#3
abbrev OpSelect.reserved110 : BitVec 3 := 0b110#3
abbrev OpSelect.reserved111 : BitVec 3 := 0b111#3

/-- Why a record is none of the table's: its operands do not have the types its op-select code gives them
(R73, R77). -/
inductive DecodeReject where
  | encTakesACommand
  | rxcTakesAChunk
  | openTakesNoOperands
  | closeTakesNoOperands
  | resetTakesNoOperands
  deriving DecidableEq, Repr

/-- The op-select map of R73. A reserved code is a row of its own, whatever stands beside it (R78). -/
def decodeRecord (r : OpRecord) : Except DecodeReject Instr :=
  if r.op = OpSelect.enc then
    match r.operands with
    | .command opcode payload => .ok (.enc opcode payload)
    | .none | .chunk _ => .error .encTakesACommand
  else if r.op = OpSelect.rxc then
    match r.operands with
    | .chunk bytes => .ok (.rxc bytes)
    | .none | .command _ _ => .error .rxcTakesAChunk
  else if r.op = OpSelect.openConn then
    match r.operands with
    | .none => .ok .openConn
    | .command _ _ | .chunk _ => .error .openTakesNoOperands
  else if r.op = OpSelect.closeConn then
    match r.operands with
    | .none => .ok .closeConn
    | .command _ _ | .chunk _ => .error .closeTakesNoOperands
  else if r.op = OpSelect.reset then
    match r.operands with
    | .none => .ok .reset
    | .command _ _ | .chunk _ => .error .resetTakesNoOperands
  else if r.op = OpSelect.reserved000 then .ok .reserved000
  else if r.op = OpSelect.reserved110 then .ok .reserved110
  else .ok .reserved111

/-- The instruction a move stands for. A candidate or a frame of any length decodes: its length is judged
when the unit is called (spec/41_decoder.md R123). -/
def decodeMove : HostMove → Except DecodeReject Instr
  | .issue r => decodeRecord r
  | .overlap r => decodeRecord r
  | .tryDecode candidate => .ok (.dec candidate)
  | .wireFrame bytes => .ok (.outboundFrame bytes)

/-! ### The encoder -/

/-- The move that stands for an instruction. RXB has no code of its own: it is RXC's record with a
one-byte chunk (R83). -/
def encode : Instr → HostMove
  | .enc opcode payload => .issue ⟨OpSelect.enc, .command opcode payload⟩
  | .rxc chunk => .issue ⟨OpSelect.rxc, .chunk chunk⟩
  | .openConn => .issue ⟨OpSelect.openConn, .none⟩
  | .closeConn => .issue ⟨OpSelect.closeConn, .none⟩
  | .reset => .issue ⟨OpSelect.reset, .none⟩
  | .reserved000 => .issue ⟨OpSelect.reserved000, .none⟩
  | .reserved110 => .issue ⟨OpSelect.reserved110, .none⟩
  | .reserved111 => .issue ⟨OpSelect.reserved111, .none⟩
  | .rxb x => .issue ⟨OpSelect.rxc, .chunk [x]⟩
  | .outboundFrame bytes => .wireFrame bytes
  | .dec candidate => .tryDecode candidate

/-- What a pseudo-operation stands for (R83); every other instruction stands for itself. -/
def Instr.expand : Instr → Instr
  | .rxb x => .rxc [x]
  | .enc opcode payload => .enc opcode payload
  | .rxc chunk => .rxc chunk
  | .openConn => .openConn
  | .closeConn => .closeConn
  | .reset => .reset
  | .reserved000 => .reserved000
  | .reserved110 => .reserved110
  | .reserved111 => .reserved111
  | .outboundFrame bytes => .outboundFrame bytes
  | .dec candidate => .dec candidate

/-! ### The table's words -/

/-- The `n` bytes of a word of `8 * n` bits, byte 0 most significant (R69). -/
def bytesOfWord : (n : Nat) → (w : Nat) → List Byte
  | 0, _ => []
  | n + 1, w => BitVec.ofNat 8 (w >>> (8 * n)) :: bytesOfWord n w

/-- A byte sequence as one word, byte 0 most significant (R69). -/
def wordOfBytes : List Byte → Nat
  | [] => 0
  | b :: bytes => b.toNat <<< (8 * bytes.length) ||| wordOfBytes bytes

/-- How many bits the table gives an operation record, in whole bytes. -/
def recordBits : Nat := 8

/-- How many bits the table gives an inbound frame candidate (R71). -/
def inboundBits : Nat := 8 * Config.IN_LEN

/-- How many bits the table gives an outbound frame (R70). -/
def outboundBits : Nat := 8 * Config.OUT_LEN

/-- The operands of zeros that a table word of an op-select code stands for: opcode 0 and byte lists of
length 0. -/
def zeroOperands (op : BitVec 3) : RecordOperands :=
  if op = OpSelect.enc then .command 0 []
  else if op = OpSelect.rxc then .chunk []
  else .none

/-- The move that a word of the opcode table stands for. A record's word holds `op[2:0]` and nothing else:
the table's mask gives bits 7..3 no place in it. DESIGN CHOICE (log entry 13). -/
def moveOfTableWord (nbits w : Nat) : Option HostMove :=
  if nbits = recordBits then
    let op := BitVec.ofNat 3 w
    some (.issue ⟨op, zeroOperands op⟩)
  else if nbits = inboundBits then some (.tryDecode (bytesOfWord Config.IN_LEN w))
  else if nbits = outboundBits then some (.wireFrame (bytesOfWord Config.OUT_LEN w))
  else none

/-- The instruction the decoder reads from a word of the opcode table. -/
def decodeTableWord (nbits w : Nat) : Option Instr :=
  match moveOfTableWord nbits w with
  | some m => (decodeMove m).toOption
  | none => none

/-- The table word of an instruction whose operands the table has a place for: its number of bits and its
bits. A record whose operands are not zeros has none. -/
def encodeTableWord : Instr → Option (Nat × Nat)
  | .enc opcode payload => if opcode = 0 ∧ payload = [] then some (recordBits, OpSelect.enc.toNat) else none
  | .rxc chunk => if chunk = [] then some (recordBits, OpSelect.rxc.toNat) else none
  | .openConn => some (recordBits, OpSelect.openConn.toNat)
  | .closeConn => some (recordBits, OpSelect.closeConn.toNat)
  | .reset => some (recordBits, OpSelect.reset.toNat)
  | .reserved000 => some (recordBits, OpSelect.reserved000.toNat)
  | .reserved110 => some (recordBits, OpSelect.reserved110.toNat)
  | .reserved111 => some (recordBits, OpSelect.reserved111.toNat)
  | .rxb _ => none
  | .outboundFrame bytes => some (outboundBits, wordOfBytes bytes)
  | .dec candidate => some (inboundBits, wordOfBytes candidate)

end Sys2Proof
end

