-- ==== Sys2Proof/Machine/State.lean ====
section
/-! DEFINITION. The state of the block and of a run on it. The spec's own state is `connOpen` and `buf`
(spec/10_state.md R20); the other fields hold what the spec gives a run (spec/70_reset_and_hazards.md
R240), since the host's step takes no input and returns no output, and the parameter FW_REVISION. -/

namespace Sys2Proof.Machine

/-- An error of ENC (spec/60_exceptions.md R200). It records nothing besides its code (R201). -/
inductive EncError where
  | invalidPayloadLength
  deriving DecidableEq, Repr

/-- An error of the FrameDecoder, internal to the reassembler (R200, R206). -/
inductive DecodeError where
  | badHeader
  | badChecksum
  deriving DecidableEq, Repr

/-- The closed list of refusal reasons (spec/60_exceptions.md R209). -/
inductive RefusalReason where
  | reservedOp
  | rxClosed
  | decoderWidth
  | overlap
  | otherRevision
  deriving DecidableEq, Repr

/-- An InboundSample: a value and the timestamp drawn at its decode (spec/42_resync.md R145). -/
structure Sample where
  value : BitVec Config.VALUE_W
  timestamp : Config.Ts
  deriving DecidableEq, Repr

/-- How a host move ended. An operation ends in exactly one way: result, error or refusal
(spec/00_scope.md R14, R15). -/
inductive OpOutcome where
  /-- A result without output: OPEN, CLOSE, RESET (spec/43_connection.md R170–R172). -/
  | done
  /-- ENC's result (spec/40_encoder.md R102). -/
  | frame (bytes : Vector Byte Config.OUT_LEN)
  /-- ENC's error (spec/40_encoder.md R103). -/
  | encError (e : EncError)
  /-- RXC's result (spec/42_resync.md R144). -/
  | samples (xs : List Sample)
  /-- The unit-level result of `try_decode` (spec/41_decoder.md R120); no operation of the block. -/
  | decoded (value : BitVec Config.VALUE_W)
  /-- The unit-level error of `try_decode` (R120); no operation of the block returns it (R126). -/
  | decodeError (e : DecodeError)
  /-- Whether a byte sequence is an outbound frame (spec/30_encoding.md R70); no operation of the block. -/
  | frameCheck (holds : Bool)
  /-- A refused move (spec/60_exceptions.md R209). -/
  | refused (reason : RefusalReason)
  deriving DecidableEq, Repr

/-- Whether a move was refused. -/
def OpOutcome.isRefusal : OpOutcome → Bool
  | .refused _ => true
  | .done | .frame _ | .encError _ | .samples _ | .decoded _ | .decodeError _ | .frameCheck _ => false

/-- The state. Plain data. -/
structure State where
  /-- The spec's `conn_open` (R24). -/
  connOpen : Bool
  /-- The spec's `buf`, the receive buffer, earliest byte first (R21, spec/20_memory.md R45). -/
  buf : List Byte
  /-- The run's refusal mark (spec/60_exceptions.md R209). -/
  refusalMark : Bool
  /-- The model's own: the host's moves not yet made, in the host's order (spec/60_exceptions.md R212;
  log entry 1). -/
  pending : List HostMove
  /-- The model's own: how the moves made so far ended, oldest first (spec/70_reset_and_hazards.md R240;
  log entry 4). No operation reads it (spec/10_state.md R27). -/
  outcomes : List OpOutcome
  /-- The model's own: how many timestamps were drawn, the argument of the free value `Config.drawTs`
  (log entry 5). -/
  tsDraws : Nat
  /-- The parameter FW_REVISION (spec/00_scope.md R10), an argument of every instruction. It is no part of
  `S`, and no operation changes it (spec/10_state.md R29; log entry 11). -/
  fwRevision : Config.FwRevision
  deriving DecidableEq, Repr

/-- The state after power-on: `conn_open` false and `buf` empty (spec/10_state.md R31,
spec/70_reset_and_hazards.md R230). The other fields are the start of a run on a block built for the main
line, the one revision that is specified (spec/00_scope.md R6). DESIGN CHOICE (log entries 6 and 11). -/
def State.reset : State where
  connOpen := false
  buf := []
  refusalMark := false
  pending := []
  outcomes := []
  tsDraws := 0
  fwRevision := .mainLine

/-- The block has no trap and no fault (spec/60_exceptions.md R204), so no step of the model faults: the
type has no constructor, nobody raises one, and that is safe. -/
inductive Fault where
  deriving DecidableEq, Repr

/-- Where the model has no next state. The refusals of spec/60_exceptions.md R209 are NOT among them: a
record so refused has an effect, the run's mark, and later records still apply (log entry 3). -/
inductive Refusal where
  /-- An instruction without a meaning. Raised by no arm of `exec`; safe. -/
  | notModelled (mnemonic : String)
  /-- Raised by `step` alone: the host's move holds operands that do not have the types its op-select code
  gives them, so it is no record of spec/30_encoding.md R73. Safe: the model stops. -/
  | malformedRecord (why : DecodeReject)
  deriving DecidableEq, Repr

end Sys2Proof.Machine
end

