-- ==== Sys2Proof/Machine/Operands.lean ====
section
/-! DEFINITION. The operand forms of the block: checksum, opcode split, value assembly, payload padding and
the 4-byte candidate (spec/00_scope.md R13, spec/30_encoding.md R61–R67). -/

namespace Sys2Proof.Machine

/-- `sum8`: the sum of the bytes over the naturals, modulo `2 ^ CSUM_W` (R13, R65). -/
def sum8 (bytes : List Byte) : BitVec Config.CSUM_W :=
  BitVec.ofNat Config.CSUM_W (bytes.map BitVec.toNat).sum

/-- `opcode >> 8`, the byte sent first (R67, spec/20_memory.md R46). -/
def opcodeHi (opcode : BitVec Config.OPCODE_W) : Byte :=
  (opcode >>> 8).setWidth 8

/-- `opcode & 0xFF`, the byte sent second (R67). -/
def opcodeLo (opcode : BitVec Config.OPCODE_W) : Byte :=
  (opcode &&& 0xFF).setWidth 8

/-- `(zext_16(hi) << 8) | zext_16(lo)` (R66). -/
def assembleValue (hi lo : Byte) : BitVec Config.VALUE_W :=
  hi.setWidth Config.VALUE_W <<< 8 ||| lo.setWidth Config.VALUE_W

/-- The payload with zero bytes after it up to `MAX_PAYLOAD` (R62). -/
def padPayload (payload : List Byte) : List Byte :=
  payload ++ List.replicate (Config.MAX_PAYLOAD - payload.length) Config.PAD

/-- The first `IN_LEN` bytes of a sequence that has them: the candidate window (spec/00_scope.md R16). -/
def window (bytes : List Byte) (h : Config.IN_LEN ≤ bytes.length) : Vector Byte Config.IN_LEN :=
  ⟨(bytes.take Config.IN_LEN).toArray, by
    rw [List.size_toArray, List.length_take]; exact Nat.min_eq_left h⟩

/-- A byte sequence as a candidate, where it has exactly `IN_LEN` bytes (spec/41_decoder.md R123). -/
def candidateOf (bytes : List Byte) : Option (Vector Byte Config.IN_LEN) :=
  if h : bytes.length = Config.IN_LEN then some ⟨bytes.toArray, h⟩ else none

end Sys2Proof.Machine
end

