-- ==== Sys2Proof/Machine/Ops.lean ====
section
/-! DEFINITION. The named operations on the state: the buffer primitives of spec/00_scope.md R14 and
spec/20_memory.md R41, the timestamp draw, and the ways a move ends. The block has no trap
(spec/60_exceptions.md R204): an error is returned, and nothing is saved or restored. -/

namespace Sys2Proof.Machine

/-- `return v` and `raise E` of R14: the move ends and the host is given its outcome. -/
def State.endWith (o : OpOutcome) (s : State) : State :=
  { s with outcomes := s.outcomes ++ [o] }

/-- `refuse R` of R14, with the effect that spec/60_exceptions.md R209 gives it: no field of `S` changes,
there is no output, and the run's mark is set. -/
def State.refuse (r : RefusalReason) (s : State) : State :=
  { s with refusalMark := true, outcomes := s.outcomes ++ [.refused r] }

/-- The rest of the host's moves, once the first is taken up. -/
def State.afterMove (rest : List HostMove) (s : State) : State :=
  { s with pending := rest }

/-- `BufAppend(c)`: the bytes of `c` at the back, in order (R41). -/
def State.bufAppend (chunk : List Byte) (s : State) : State :=
  { s with buf := s.buf ++ chunk }

/-- `BufTake(4)`: the first `IN_LEN` bytes, not removed (R41). -/
def State.bufTake (s : State) (h : Config.IN_LEN ≤ s.buf.length) : Vector Byte Config.IN_LEN :=
  window s.buf h

/-- `BufDrop(n)`: the first `n` bytes removed (R41). -/
def State.bufDrop (n : Nat) (s : State) : State :=
  { s with buf := s.buf.drop n }

/-- The buffer cleared and the connection flag written, as OPEN, CLOSE and RESET do
(spec/43_connection.md R170–R172). -/
def State.setConnection (isOpen : Bool) (s : State) : State :=
  { s with buf := [], connOpen := isOpen }

/-- `draw_ts()` (spec/42_resync.md R145): a free timestamp, and the next draw made ready. -/
def State.drawTs (s : State) : Config.Ts × State :=
  (Config.drawTs s.tsDraws, { s with tsDraws := s.tsDraws + 1 })

/-- An operation on frames, carried out where the block is built for the revision whose frame shapes are
specified and refused OtherRevision where it is built for any other (spec/00_scope.md R6, R10), also where
the operation itself would be refused: the spec gives refusals no priority. DESIGN CHOICE (log entries 11 and
22). -/
def forRevision (act : State → State) (s : State) : State :=
  if s.fwRevision.specified then act s else s.refuse .otherRevision

end Sys2Proof.Machine
end

