-- ==== Sys2Proof/Machine/Connection.lean ====
section
/-! DEFINITION. The connection's lifecycle: OPEN, CLOSE, RESET (spec/43_connection.md). -/

namespace Sys2Proof.Machine

/-- OPEN, op-select 011 (R170): a fresh, empty buffer and an open connection, also when one was open. -/
def execOpen (s : State) : Host.Outcome State Fault Refusal :=
  .next ((s.setConnection true).endWith .done)

/-- CLOSE, op-select 100 (R171): the buffer is cleared without a sample, and no connection is open. -/
def execClose (s : State) : Host.Outcome State Fault Refusal :=
  .next ((s.setConnection false).endWith .done)

/-- RESET, op-select 101 (R172): the power-on values of `S`. The run's refusal mark stays: no later
operation clears it (spec/60_exceptions.md R209; log entry 14). -/
def execReset (s : State) : Host.Outcome State Fault Refusal :=
  .next ((s.setConnection false).endWith .done)

end Sys2Proof.Machine
end

