-- ==== Sys2Proof/Machine/Flags.lean ====
section
/-! DEFINITION. The block has no status flags (spec/10_state.md R26). What takes their place is the status
code of a unit's answer (spec/60_exceptions.md R200): a label on a returned value, kept nowhere (R27). -/

namespace Sys2Proof.Machine

/-- ENC status: 0 success, 1 InvalidPayloadLength (R200). -/
def encStatus {α : Type} : Except EncError α → Nat
  | .ok _ => 0
  | .error .invalidPayloadLength => 1

/-- Decoder status: 0 success, 1 BadHeader, 2 BadChecksum (R200). -/
def decoderStatus {α : Type} : Except DecodeError α → Nat
  | .ok _ => 0
  | .error .badHeader => 1
  | .error .badChecksum => 2

end Sys2Proof.Machine
end

