-- ==== Sys2Proof/Machine/Decoder.lean ====
section
/-! DEFINITION. The FrameDecoder `try_decode` (spec/41_decoder.md), an internal unit without an op-select
code (spec/30_encoding.md R76), and its unit-level call. -/

namespace Sys2Proof.Machine

/-- `try_decode`: the header check first, then the checksum, then the value (R120, R121). A pure function
of its four bytes (R122). -/
def tryDecode (w : Vector Byte Config.IN_LEN) : Except DecodeError (BitVec Config.VALUE_W) :=
  if w[0] ≠ Config.HDR then .error .badHeader
  else if w[3] ≠ sum8 [w[0], w[1], w[2]] then .error .badChecksum
  else .ok (assembleValue w[1] w[2])

/-- The validity of an inbound frame as spec/30_encoding.md R64 states it. -/
def isInboundFrame (w : Vector Byte Config.IN_LEN) : Bool :=
  w[0] == Config.HDR && w[3] == sum8 [w[0], w[1], w[2]]

/-- The unit-level outcome of the decoder on a byte sequence of any length (R120, R123). -/
def decodeCandidate (candidate : List Byte) (s : State) : State :=
  match candidateOf candidate with
  | none => s.refuse .decoderWidth
  | some w =>
    match tryDecode w with
    | .ok v => s.endWith (.decoded v)
    | .error e => s.endWith (.decodeError e)

/-- DEC (R120): the decoder called as a unit. `S` is not read or written. DESIGN CHOICE (log entry 7). -/
def execDec (candidate : List Byte) (s : State) : Host.Outcome State Fault Refusal :=
  .next (forRevision (decodeCandidate candidate) s)

end Sys2Proof.Machine
end

