-- ==== Sys2Proof/Machine/Encoder.lean ====
section
/-! DEFINITION. The FrameEncoder (spec/40_encoder.md) and the outbound frame format
(spec/30_encoding.md R60–R62, R70). -/

namespace Sys2Proof.Machine

/-- The `OUT_BODY` bytes before the checksum: header, opcode high byte first, padded payload (R60, R100). -/
def encodeBody (opcode : BitVec Config.OPCODE_W) (payload : List Byte) : List Byte :=
  [Config.HDR, opcodeHi opcode, opcodeLo opcode] ++ padPayload payload

theorem encodeBody_length (opcode : BitVec Config.OPCODE_W) (payload : List Byte)
    (h : payload.length ≤ Config.MAX_PAYLOAD) : (encodeBody opcode payload).length = Config.OUT_BODY := by
  simp only [Config.MAX_PAYLOAD] at h
  simp [encodeBody, padPayload, Config.OUT_BODY, Config.MAX_PAYLOAD]
  omega

/-- `encode(opcode, payload)`: the whole of ENC's computation, a total function of its operands (R100,
R101). Its one test is the payload's length. -/
def encodeFrame (opcode : BitVec Config.OPCODE_W) (payload : List Byte) :
    Except EncError (Vector Byte Config.OUT_LEN) :=
  if h : payload.length ≤ Config.MAX_PAYLOAD then
    .ok ⟨(encodeBody opcode payload ++ [sum8 (encodeBody opcode payload)]).toArray, by
      simp [encodeBody_length opcode payload h]⟩
  else .error .invalidPayloadLength

/-- ENC (R100): the frame or the error goes to the caller. No state is read or written. -/
def encodeCommand (opcode : BitVec Config.OPCODE_W) (payload : List Byte) (s : State) : State :=
  match encodeFrame opcode payload with
  | .ok f => s.endWith (.frame f)
  | .error e => s.endWith (.encError e)

/-- ENC, op-select 001 (R100, R103, R104). -/
def execEnc (opcode : BitVec Config.OPCODE_W) (payload : List Byte) (s : State) :
    Host.Outcome State Fault Refusal :=
  .next (forRevision (encodeCommand opcode payload) s)

/-- Whether a byte sequence of `OUT_LEN` bytes keeps the two constraints that an outbound frame's bytes
show: the header (R60) and the checksum over the `OUT_BODY` bytes before it (R61). This is the check that
spec/40_encoder.md R102 says every ENC result passes. -/
def isOutboundFrame (bytes : List Byte) : Bool :=
  bytes.length == Config.OUT_LEN && bytes.take 1 == [Config.HDR]
    && bytes.drop Config.OUT_BODY == [sum8 (bytes.take Config.OUT_BODY)]

/-- OUTBOUND_FRAME (R60, R70): the format put to a byte sequence. The format is no operation of the block,
so `S` is not read or written; a sequence of another length is a frame shape of another revision, which a
model refuses (spec/00_scope.md R6). DESIGN CHOICE (log entry 8). -/
def execOutboundFrame (bytes : List Byte) (s : State) : Host.Outcome State Fault Refusal :=
  .next (forRevision (fun s =>
    if bytes.length = Config.OUT_LEN then s.endWith (.frameCheck (isOutboundFrame bytes))
    else s.refuse .otherRevision) s)

end Sys2Proof.Machine
end

