-- ==== Sys2Proof/Machine/Reassembler.lean ====
section
/-! DEFINITION. The ReceiveReassembler: the drain step, the drain loop, RXC and RXB
(spec/42_resync.md R140, R141, R150). -/

namespace Sys2Proof.Machine

/-- One drain step (R141): a valid window is consumed and gives one sample, stamped as it is consumed
(R145); any other window drops exactly `DROP` bytes. The two decoder errors are treated alike. -/
def drainStep (s : State) (h : Config.IN_LEN ≤ s.buf.length) : Option Sample × State :=
  match tryDecode (s.bufTake h) with
  | .ok v =>
    let draw := (s.bufDrop Config.IN_LEN).drawTs
    (some ⟨v, draw.1⟩, draw.2)
  | .error _ => (none, s.bufDrop Config.DROP)

/-- The drain loop (R140 step 2), with the samples found so far in order (R144). The first argument bounds
the number of drain steps; R142 says how many are enough. -/
def drain : Nat → State → List Sample → List Sample × State
  | 0, s, out => (out, s)
  | n + 1, s, out =>
    if h : Config.IN_LEN ≤ s.buf.length then
      match drainStep s h with
      | (some x, s') => drain n s' (out ++ [x])
      | (none, s') => drain n s' out
    else (out, s)

/-- RXC on any chunk (R140): refused while no connection is open (R154); else the chunk goes to the back of
the buffer, the loop runs, and the samples go to the caller. -/
def receive (chunk : List Byte) (s : State) : State :=
  if s.connOpen then
    let filled := s.bufAppend chunk
    let drained := drain filled.buf.length filled []
    drained.2.endWith (.samples drained.1)
  else s.refuse .rxClosed

/-- RXC, op-select 010 (R140). -/
def execRxc (chunk : List Byte) (s : State) : Host.Outcome State Fault Refusal :=
  .next (forRevision (receive chunk) s)

/-- RXB, which stands for RXC with a one-byte chunk (spec/30_encoding.md R83, R150). -/
def execRxb (x : Byte) (s : State) : Host.Outcome State Fault Refusal :=
  .next (forRevision (receive [x]) s)

end Sys2Proof.Machine
end

