-- ==== Sys2Proof/Machine/Reserved.lean ====
section
/-! DEFINITION. The three reserved op-select codes (spec/30_encoding.md R78): a record with one is refused
ReservedOp, which sets the run's mark and changes no field of `S` (spec/60_exceptions.md R209). -/

namespace Sys2Proof.Machine

/-- reserved, op-select 000 (R78). -/
def execReserved000 (s : State) : Host.Outcome State Fault Refusal :=
  .next (s.refuse .reservedOp)

/-- reserved, op-select 110 (R78). -/
def execReserved110 (s : State) : Host.Outcome State Fault Refusal :=
  .next (s.refuse .reservedOp)

/-- reserved, op-select 111 (R78). -/
def execReserved111 (s : State) : Host.Outcome State Fault Refusal :=
  .next (s.refuse .reservedOp)

end Sys2Proof.Machine
end

