-- ==== Sys2Proof/Machine/Dispatch.lean ====
section
/-! DEFINITION. The dispatch from an instruction to its meaning. -/

namespace Sys2Proof.Machine

def exec (i : Instr) (s : State) : Host.Outcome State Fault Refusal :=
  match i with
  | .enc opcode payload => Sys2Proof.Machine.execEnc opcode payload s
  | .rxc chunk => Sys2Proof.Machine.execRxc chunk s
  | .openConn => Sys2Proof.Machine.execOpen s
  | .closeConn => Sys2Proof.Machine.execClose s
  | .reset => Sys2Proof.Machine.execReset s
  | .reserved000 => Sys2Proof.Machine.execReserved000 s
  | .reserved110 => Sys2Proof.Machine.execReserved110 s
  | .reserved111 => Sys2Proof.Machine.execReserved111 s
  | .rxb x => Sys2Proof.Machine.execRxb x s
  | .outboundFrame bytes => Sys2Proof.Machine.execOutboundFrame bytes s
  | .dec candidate => Sys2Proof.Machine.execDec candidate s

end Sys2Proof.Machine
end

