-- ==== Sys2Proof/Machine/Step.lean ====
section
/-! DEFINITION. One step: the host's next move, decoded and carried out (spec/00_scope.md R7,
spec/60_exceptions.md R212). -/

namespace Sys2Proof.Machine

/-- One move of the host is one atomic step. Without a move the block is quiescent and keeps its state
(spec/00_scope.md R16, spec/42_resync.md R143). A move that overlaps another operation is refused Overlap
(spec/70_reset_and_hazards.md R233), also where another rule refuses its record: the spec gives refusals no
priority. DESIGN CHOICE (log entries 10 and 22). -/
def step (s : State) : Host.Outcome State Fault Refusal :=
  match s.pending with
  | [] => .next s
  | m :: rest =>
    if m.overlaps then .next ((s.afterMove rest).refuse .overlap)
    else
      match decodeMove m with
      | .ok i => exec i (s.afterMove rest)
      | .error why => .refused (.malformedRecord why)

/-- The state with the move of a table word put before the host's other moves (log entry 1). -/
def State.withFetchWord (s : State) (nbits w : Nat) : State :=
  match moveOfTableWord nbits w with
  | some m => { s with pending := m :: s.pending }
  | none => s

end Sys2Proof.Machine
end

