-- ==== Sys2Proof/Machine/Stream.lean ====
section
/-! DEFINITION. The spec's other readings of the reassembler, as pure functions on byte sequences: the
stream semantics `parse` and its position walk (spec/42_resync.md R147), the byte-serial machine (R149) and
the list of drain steps (R156, the "drain steps" column of spec/95_test_vectors.md section 2.3). `exec`
uses none of them: they are what RXC is compared with. -/

namespace Sys2Proof.Machine

/-- `parse` with a bound on its recursion; R147 recurses on the length of the stream. -/
def parseWithin : Nat → List Byte → List (BitVec Config.VALUE_W) × List Byte
  | 0, bytes => ([], bytes)
  | n + 1, bytes =>
    if h : Config.IN_LEN ≤ bytes.length then
      match tryDecode (window bytes h) with
      | .ok v =>
        let tail := parseWithin n (bytes.drop Config.IN_LEN)
        (v :: tail.1, tail.2)
      | .error _ => parseWithin n (bytes.drop Config.DROP)
    else ([], bytes)

/-- `parse(s)`: the values of a stream and its residual (R147). -/
def parse (bytes : List Byte) : List (BitVec Config.VALUE_W) × List Byte :=
  parseWithin bytes.length bytes

/-- The position walk of R147 from position `p`, with a bound on its recursion: while a window fits, a
valid inbound frame (R64) is emitted and the position moves by `IN_LEN`, otherwise by `DROP`. -/
def walkWithin : Nat → List Byte → Nat → List (BitVec Config.VALUE_W) × Nat
  | 0, _, p => ([], p)
  | n + 1, bytes, p =>
    if h : p + Config.IN_LEN ≤ bytes.length then
      let w := window (bytes.drop p) (by rw [List.length_drop]; omega)
      if isInboundFrame w then
        let tail := walkWithin n bytes (p + Config.IN_LEN)
        (assembleValue w[1] w[2] :: tail.1, tail.2)
      else walkWithin n bytes (p + Config.DROP)
    else ([], p)

/-- The position walk of R147 from the start of the stream: the values and the residual. -/
def walk (bytes : List Byte) : List (BitVec Config.VALUE_W) × List Byte :=
  let stop := walkWithin bytes.length bytes 0
  (stop.1, bytes.drop stop.2)

/-- `RxByte(x)` of R149 on the register `w`: the value emitted, if any, and the register after. -/
def rxByte (w : List Byte) (x : Byte) : Option (BitVec Config.VALUE_W) × List Byte :=
  if h : Config.IN_LEN ≤ (w ++ [x]).length then
    match tryDecode (window (w ++ [x]) h) with
    | .ok v => (some v, [])
    | .error _ => (none, (w ++ [x]).drop Config.DROP)
  else (none, w ++ [x])

/-- `RxByte` folded over the bytes of a chunk (R149): the values in order and the register after. -/
def rxBytes : List Byte → List Byte → List (BitVec Config.VALUE_W) × List Byte
  | w, [] => ([], w)
  | w, x :: chunk =>
    let one := rxByte w x
    let tail := rxBytes one.2 chunk
    (one.1.toList ++ tail.1, tail.2)

/-- The values of one RXC with their stamps: the first value gets draw `n`, the next draw `n + 1`, and so on
(R144, R145). -/
def stamped : Nat → List (BitVec Config.VALUE_W) → List Sample
  | _, [] => []
  | n, v :: values => ⟨v, Config.drawTs n⟩ :: stamped (n + 1) values

/-- What one drain step did. -/
inductive DrainAction where
  | consume (value : BitVec Config.VALUE_W)
  | drop (e : DecodeError)
  deriving DecidableEq, Repr

/-- Whether a drain step dropped. -/
def DrainAction.isDrop : DrainAction → Bool
  | .drop _ => true
  | .consume _ => false

/-- The drain steps on a stream, in order, with a bound on their number. -/
def drainActionsWithin : Nat → List Byte → List DrainAction
  | 0, _ => []
  | n + 1, bytes =>
    if h : Config.IN_LEN ≤ bytes.length then
      match tryDecode (window bytes h) with
      | .ok v => .consume v :: drainActionsWithin n (bytes.drop Config.IN_LEN)
      | .error e => .drop e :: drainActionsWithin n (bytes.drop Config.DROP)
    else []

/-- The drain steps on a stream, in order (R141, R142). -/
def drainActions (bytes : List Byte) : List DrainAction :=
  drainActionsWithin bytes.length bytes

/-- The number of drain steps that dropped (R156). -/
def dropCount (bytes : List Byte) : Nat :=
  (drainActions bytes).countP DrainAction.isDrop

end Sys2Proof.Machine
end

