-- ==== Sys2Proof/Safety.lean ====
section
/-! DEFINITION. What counts as a good state and a good run: the invariants of spec/10_state.md R22 and R23,
the host's duties (spec/60_exceptions.md R215), and the observation of a run
(spec/70_reset_and_hazards.md R240). -/

namespace Sys2Proof.Safety

open Sys2Proof.Machine

/-- Quiescent invariant: between operations the buffer is shorter than a frame (R22). -/
abbrev Quiescent (s : State) : Prop := s.buf.length < Config.IN_LEN

/-- Closed-connection invariant (R23). -/
abbrev ClosedIsEmpty (s : State) : Prop := s.connOpen = false → s.buf = []

/-- The run's mark is set exactly when some move was refused (spec/60_exceptions.md R209, R240). -/
abbrev MarkTellsRefusals (s : State) : Prop := s.refusalMark = s.outcomes.any OpOutcome.isRefusal

/-- The invariant of the machine. -/
abbrev BlockInv (s : State) : Prop := Quiescent s ∧ ClosedIsEmpty s ∧ MarkTellsRefusals s

/-- A run: so many of the host's moves applied, one after the other (R240). -/
def run : Nat → State → Host.Outcome State Fault Refusal
  | 0, s => .next s
  | n + 1, s =>
    match step s with
    | .next t => run n t
    | .fault r => .fault r
    | .refused r => .refused r

/-- A run that a claim accepts: none of its records was refused (R240). -/
def accepted (s : State) : Bool := !s.refusalMark

/-- The architectural state `S` of the spec (spec/10_state.md R20). -/
structure ArchState where
  connOpen : Bool
  buf : List Byte
  deriving DecidableEq, Repr

/-- The spec's `S` of a state. -/
def arch (s : State) : ArchState := ⟨s.connOpen, s.buf⟩

/-- A per-operation output of the block (R240): frames, InvalidPayloadLength results and sample lists.
OPEN, CLOSE, RESET and refused records give none, and the unit-level calls are no operations. -/
def output : OpOutcome → Option OpOutcome
  | .frame f => some (.frame f)
  | .encError e => some (.encError e)
  | .samples xs => some (.samples xs)
  | .done | .decoded _ | .decodeError _ | .frameCheck _ | .refused _ => none

/-- The observation of a run, in three parts (R240). -/
structure Observation where
  outputs : List OpOutcome
  final : ArchState
  anyRefused : Bool
  deriving DecidableEq, Repr

/-- What is observed of a run that has come to a state (R240). -/
def observe (s : State) : Observation :=
  ⟨s.outcomes.filterMap output, arch s, s.refusalMark⟩

/-- The block is built for the main line, the one revision whose frame shapes are specified
(spec/00_scope.md R6, R10). -/
abbrev MainLine (s : State) : Prop := s.fwRevision = .mainLine

/-! ### The host's duties (spec/60_exceptions.md R215) -/

/-- Where a host stands in the order of spec/70_reset_and_hazards.md R231. -/
inductive HostPhase where
  /-- At power-on: RESET is owed. -/
  | powerOn
  /-- After RESET, with no connection open. -/
  | idle
  /-- With a connection open. -/
  | connected
  deriving DecidableEq, Repr

/-- A host that keeps its duties: where it stands, and the bytes it has still to deliver, in wire order, one
list per connection, that of the connection now open (else of the next one) first (R236). -/
structure HostSide where
  phase : HostPhase
  received : List (List Byte)
  deriving DecidableEq, Repr

/-- RXC's duties: a connection is open, and the chunk is the next of its received bytes, each exactly once
and in order (R215, R236). -/
def HostSide.deliver (h : HostSide) (chunk : List Byte) : Option HostSide :=
  match h.phase, h.received with
  | .connected, stream :: later =>
    if chunk.isPrefixOf stream then some { h with received := stream.drop chunk.length :: later } else none
  | .connected, [] | .powerOn, _ | .idle, _ => none

/-- The host after an operation that keeps its duties; none where one is broken. RESET is issued at power-on,
before everything but ENC and only there; OPEN while no connection is open; CLOSE while one is, once its bytes
are delivered; ENC with at most `MAX_PAYLOAD` payload bytes, at any point (R215, R231). DESIGN CHOICE (log
entry 21). -/
def HostSide.afterOperation (h : HostSide) : Instr → Option HostSide
  | .reset => if h.phase = .powerOn then some { h with phase := .idle } else none
  | .enc _ payload => if payload.length ≤ Config.MAX_PAYLOAD then some h else none
  | .openConn => if h.phase = .idle ∧ h.received ≠ [] then some { h with phase := .connected } else none
  | .rxc chunk => h.deliver chunk
  | .rxb x => h.deliver [x]
  | .closeConn =>
    match h.phase, h.received with
    | .connected, [] :: later => some ⟨.idle, later⟩
    | .connected, (_ :: _) :: _ | .connected, [] | .powerOn, _ | .idle, _ => none
  | .reserved000 | .reserved110 | .reserved111 | .outboundFrame _ | .dec _ => none

/-- The host after a move that keeps its duties: an operation record that overlaps nothing (R215, R233). -/
def HostSide.afterMove (h : HostSide) : HostMove → Option HostSide
  | .issue r =>
    match decodeRecord r with
    | .ok i => h.afterOperation i
    | .error _ => none
  | .overlap _ | .tryDecode _ | .wireFrame _ => none

/-- Nothing is owed: RESET was issued, and every received byte was delivered. -/
def HostSide.done (h : HostSide) : Bool :=
  match h.phase with
  | .powerOn => false
  | .idle => h.received == []
  | .connected => h.received == [[]]

/-- Whether a host keeps its duties through a sequence of moves, to its end (R215, R231). -/
def HostSide.keepsDuties : HostSide → List HostMove → Bool
  | h, [] => h.done
  | h, m :: rest =>
    match h.afterMove m with
    | some h' => h'.keepsDuties rest
    | none => false

/-- Where the host of a run in progress stands: at power-on until an operation other than ENC and RXC is done,
and after that as the block's connection does (spec/10_state.md R24). -/
def phaseOf (s : State) : HostPhase :=
  if OpOutcome.done ∉ s.outcomes then .powerOn else if s.connOpen then .connected else .idle

/-- The accepted runs in progress: the block is built for the main line, nothing was refused, no ENC was
rejected, and the moves still to come keep the host's duties and deliver exactly the bytes received. -/
abbrev Dutiful (received : List (List Byte)) (s : State) : Prop :=
  MainLine s ∧ accepted s = true ∧ OpOutcome.encError .invalidPayloadLength ∉ s.outcomes ∧
    HostSide.keepsDuties ⟨phaseOf s, received⟩ s.pending = true

/-- The values of an RXC's result, without their stamps. -/
def valuesOf : OpOutcome → List (BitVec Config.VALUE_W)
  | .samples xs => xs.map Sample.value
  | .done | .frame _ | .encError _ | .decoded _ | .decodeError _ | .frameCheck _ | .refused _ => []

/-- The RXC records of a stream cut into chunks (spec/42_resync.md R148). -/
def rxcMoves (chunks : List (List Byte)) : List HostMove := chunks.map fun chunk => encode (.rxc chunk)

end Sys2Proof.Safety
end

