-- ==== Sys2Proof/Certificates/Slice0/Obligations.lean ====
section
/-! DEFINITION. The statements for the provers. `Host.Outcome.next` is written `.next`. The outcome a move
appends to `outcomes` is the model's record of what the block returned to its host (log entry 4). `MainLine`
says that the block is built for the one revision whose frame shapes are specified (R6, R10; log entry 11). -/

open Sys2Proof
open Sys2Proof.Machine
open Sys2Proof.Safety

/-! ### Encoding (spec/30_encoding.md) -/

/-- The op-select map of R73 on records of spec/95_test_vectors.md (P1, P2, P4, L7, T1), each code written
bit by bit. A sanity statement. -/
def Obligations.OpSelectMapReadsSpecRecords : Prop :=
  decodeRecord ⟨0b001#3, .command 0x0001#16 [0x10, 0x20]⟩ = .ok (.enc 0x0001#16 [0x10, 0x20]) ∧
  decodeRecord ⟨0b010#3, .chunk [0x00, 0xFF, 0x12]⟩ = .ok (.rxc [0x00, 0xFF, 0x12]) ∧
  decodeRecord ⟨0b010#3, .chunk [0xFF]⟩ = .ok (.rxc [0xFF]) ∧
  decodeRecord ⟨0b011#3, .none⟩ = .ok .openConn ∧
  decodeRecord ⟨0b100#3, .none⟩ = .ok .closeConn ∧
  decodeRecord ⟨0b101#3, .none⟩ = .ok .reset ∧
  decodeRecord ⟨0b000#3, .none⟩ = .ok .reserved000 ∧
  decodeRecord ⟨0b110#3, .none⟩ = .ok .reserved110 ∧
  decodeRecord ⟨0b111#3, .none⟩ = .ok .reserved111 ∧
  decodeTableWord 32 0xFF123445 = some (.dec [0xFF, 0x12, 0x34, 0x45]) ∧
  decodeTableWord 128 0xFF12340102030000000000000000004B =
    some (.outboundFrame [0xFF, 0x12, 0x34, 0x01, 0x02, 0x03, 0, 0, 0, 0, 0, 0, 0, 0, 0, 0x4B])

/-- Every well-formed instruction that has a table word is read back from it: no bit of a 3-bit code, of a
32-bit candidate or of a 128-bit frame is dropped. The frame words are R69–R71's; that an 8-bit word is R73's
code with operands of zeros is the model's choice (log entry 13). ENC and RXC with other operands, and RXB,
have no table word: for their records see `EncodedMovesDecodeAndRun`. -/
def Obligations.TableWordRoundTrip : Prop :=
  ∀ (i : Instr) (nbits w : Nat), WellFormed i → encodeTableWord i = some (nbits, w) →
    decodeTableWord nbits w = some i

/-- R73, R74, R83: the move of every instruction decodes to what the instruction stands for; an ENC record
decodes to its operands whatever their values, an over-long payload included; and the next step runs the
instruction. That the move stands in the state is log entry 1, that RXB's decodes to RXC log entry 9. -/
def Obligations.EncodedMovesDecodeAndRun : Prop :=
  (∀ i : Instr, decodeMove (encode i) = .ok i.expand) ∧
  (∀ (opcode : BitVec Config.OPCODE_W) (payload : List Byte),
    decodeRecord ⟨0b001#3, .command opcode payload⟩ = .ok (.enc opcode payload)) ∧
  (∀ (i : Instr) (rest : List HostMove) (s : State), s.pending = encode i :: rest →
    step s = exec i { s with pending := rest })

/-- The op-select map is one-to-one off the reserved codes: a record that decodes to an operation is that
operation's own record (R73, R77). -/
def Obligations.DecodedRecordIsTheOperationsOwn : Prop :=
  ∀ (r : OpRecord) (i : Instr), decodeRecord r = .ok i →
    i ≠ .reserved000 → i ≠ .reserved110 → i ≠ .reserved111 → encode i = .issue r

/-- R70: an outbound frame as one 128-bit word has the pattern's fixed bits, the opcode at bits 119..104,
payload byte `i` at bits 103 - 8i .. 96 - 8i (zero from the payload's length on) and the checksum of bytes
0..14 at bits 7..0. -/
def Obligations.OutboundFrameWordHasItsFields : Prop :=
  ∀ (opcode : BitVec Config.OPCODE_W) (payload : List Byte) (f : Vector Byte Config.OUT_LEN),
    encodeFrame opcode payload = .ok f →
      wordOfBytes f.toList &&& 0xFF000000000000000000000000000000 = 0xFF000000000000000000000000000000 ∧
      wordOfBytes f.toList >>> 104 % 2 ^ 16 = opcode.toNat ∧
      (∀ i, i < 12 → wordOfBytes f.toList >>> (96 - 8 * i) % 2 ^ 8 = (payload.getD i 0#8).toNat) ∧
      wordOfBytes f.toList % 2 ^ 8 = (sum8 (f.toList.take 15)).toNat

/-! ### Checksum (spec/00_scope.md R13) -/

/-- R13: `sum8` is the sum over the naturals modulo 256, 0 of the empty sequence, and the same as the sum
that wraps at every addition. -/
def Obligations.Sum8WrapsAnywhere : Prop :=
  ∀ bytes : List Byte,
    (sum8 bytes).toNat = (bytes.map BitVec.toNat).sum % 256 ∧ sum8 [] = 0#8 ∧
      sum8 bytes = bytes.foldl (· + ·) 0#8

/-! ### ENC (spec/40_encoder.md) -/

/-- R60, R61: an ENC with at most 12 payload bytes completes, in every state, with a frame of the format's
layout, and changes nothing else. -/
def Obligations.EncAnswersTheFrameFormat : Prop :=
  ∀ (opcode : BitVec Config.OPCODE_W) (payload : List Byte) (s : State), MainLine s → payload.length ≤ 12 →
    ∃ f : Vector Byte Config.OUT_LEN,
      exec (.enc opcode payload) s = .next { s with outcomes := s.outcomes ++ [.frame f] } ∧
      f[0] = 0xFF#8 ∧ f[1] = opcode.extractLsb' 8 8 ∧ f[2] = opcode.extractLsb' 0 8 ∧
      (∀ i, i < payload.length → f.toList[3 + i]? = payload[i]?) ∧
      (∀ i, payload.length ≤ i → i < 12 → f.toList[3 + i]? = some 0x00#8) ∧
      f[15] = sum8 (f.toList.take 15)

/-- R103: an ENC with more than 12 payload bytes ends in InvalidPayloadLength, returns no frame and changes
nothing else. -/
def Obligations.EncRejectsLongPayload : Prop :=
  ∀ (opcode : BitVec Config.OPCODE_W) (payload : List Byte) (s : State), MainLine s → 12 < payload.length →
    exec (.enc opcode payload) s =
      .next { s with outcomes := s.outcomes ++ [.encError .invalidPayloadLength] }

/-- R101, R212: ENC's outcome is the same from every two states. -/
def Obligations.EncOutcomeIgnoresTheState : Prop :=
  ∀ (opcode : BitVec Config.OPCODE_W) (payload : List Byte), ∃ o : OpOutcome, ∀ s : State,
    MainLine s → exec (.enc opcode payload) s = .next { s with outcomes := s.outcomes ++ [o] }

/-- R85: the closed form of the outbound checksum. -/
def Obligations.EncChecksumClosedForm : Prop :=
  ∀ (opcode : BitVec Config.OPCODE_W) (payload : List Byte) (f : Vector Byte Config.OUT_LEN),
    encodeFrame opcode payload = .ok f →
      f[15].toNat = (0xFF + (opcode.extractLsb' 8 8).toNat + (opcode.extractLsb' 0 8).toNat +
        (payload.map BitVec.toNat).sum) % 256 ∧
      (f[15].toNat : Int) = ((opcode.extractLsb' 8 8).toNat + (opcode.extractLsb' 0 8).toNat +
        (payload.map BitVec.toNat).sum - 1 : Int) % 256

/-- R105: two accepted commands give the same frame exactly when their opcodes and their padded payloads
are the same; and the rule's example. -/
def Obligations.EncInjectiveUpToTrailingZeros : Prop :=
  (∀ (o₁ o₂ : BitVec Config.OPCODE_W) (p₁ p₂ : List Byte), p₁.length ≤ 12 → p₂.length ≤ 12 →
    (encodeFrame o₁ p₁ = encodeFrame o₂ p₂ ↔
      o₁ = o₂ ∧ p₁ ++ List.replicate (12 - p₁.length) 0#8 = p₂ ++ List.replicate (12 - p₂.length) 0#8)) ∧
  encodeFrame 0x0001#16 [0x05] = encodeFrame 0x0001#16 [0x05, 0x00]

/-- R102, and the model's unit-level format check (log entry 8): what ENC returns passes the check. -/
def Obligations.EncResultPassesTheFormatCheck : Prop :=
  ∀ (opcode : BitVec Config.OPCODE_W) (payload : List Byte) (f : Vector Byte Config.OUT_LEN) (s : State),
    MainLine s → encodeFrame opcode payload = .ok f →
      exec (.outboundFrame f.toList) s = .next { s with outcomes := s.outcomes ++ [.frameCheck true] }

/-- The model's unit-level format check (log entry 8) on any 16 bytes: it completes, says whether header
(R60) and checksum (R61) hold, and changes nothing else. -/
def Obligations.OutboundFrameCheckDecidesTheFormat : Prop :=
  ∀ (f : Vector Byte Config.OUT_LEN) (s : State), MainLine s →
    ∃ holds : Bool,
      exec (.outboundFrame f.toList) s = .next { s with outcomes := s.outcomes ++ [.frameCheck holds] } ∧
      (holds = true ↔ f[0] = 0xFF#8 ∧ f[15] = sum8 (f.toList.take 15))

/-- R6, R10: where the block is built for another revision, every instruction on frames is refused
OtherRevision, with R209's effect. That the parameter comes with the state is log entry 11; that OtherRevision
comes before RxClosed and DecoderWidth is log entry 22. -/
def Obligations.OtherRevisionRefused : Prop :=
  ∀ (i : Instr) (s : State), ¬MainLine s →
    (∃ opcode payload, i = .enc opcode payload) ∨ (∃ chunk, i = .rxc chunk) ∨ (∃ x, i = .rxb x) ∨
      (∃ bytes, i = .outboundFrame bytes) ∨ (∃ candidate, i = .dec candidate) →
    exec i s = .next { s with refusalMark := true, outcomes := s.outcomes ++ [.refused .otherRevision] }

/-- R6, as log entry 8 applies it: a byte sequence of another length offered as an outbound frame is refused
OtherRevision, with R209's effect. -/
def Obligations.OtherOutboundShapeRefused : Prop :=
  ∀ (bytes : List Byte) (s : State), bytes.length ≠ 16 →
    exec (.outboundFrame bytes) s =
      .next { s with refusalMark := true, outcomes := s.outcomes ++ [.refused .otherRevision] }

/-! ### The FrameDecoder (spec/41_decoder.md) -/

/-- R120, R121: the decoder called as a unit completes on every candidate: BadHeader when byte 0 is not
0xFF, whatever the checksum; else BadChecksum when byte 3 is not the sum; else the value, high byte first.
Nothing else changes. -/
def Obligations.DecClassifiesEveryCandidate : Prop :=
  ∀ (b₀ b₁ b₂ b₃ : Byte) (s : State), MainLine s →
    (b₀ ≠ 0xFF#8 → exec (.dec [b₀, b₁, b₂, b₃]) s =
      .next { s with outcomes := s.outcomes ++ [.decodeError .badHeader] }) ∧
    (b₀ = 0xFF#8 → b₃.toNat ≠ (b₀.toNat + b₁.toNat + b₂.toNat) % 256 →
      exec (.dec [b₀, b₁, b₂, b₃]) s =
        .next { s with outcomes := s.outcomes ++ [.decodeError .badChecksum] }) ∧
    (b₀ = 0xFF#8 → b₃.toNat = (b₀.toNat + b₁.toNat + b₂.toNat) % 256 →
      exec (.dec [b₀, b₁, b₂, b₃]) s =
        .next { s with outcomes := s.outcomes ++ [.decoded (b₁ ++ b₂)] })

/-- R123: a candidate of any length other than 4 is refused DecoderWidth and not classified. -/
def Obligations.DecoderWidthRefused : Prop :=
  ∀ (candidate : List Byte) (s : State), MainLine s → candidate.length ≠ 4 →
    exec (.dec candidate) s =
      .next { s with refusalMark := true, outcomes := s.outcomes ++ [.refused .decoderWidth] }

/-- R124: the round trip of a synthesised inbound frame. -/
def Obligations.InboundFrameRoundTrip : Prop :=
  ∀ hi lo : Byte,
    tryDecode #v[0xFF#8, hi, lo, BitVec.ofNat 8 (0xFF + hi.toNat + lo.toNat)] = .ok (hi ++ lo)

/-- R72: every four bytes fall into exactly one class, and the classes have 2^16 Valid, 2^24 - 2^16
BadChecksum and 2^32 - 2^24 BadHeader members. -/
def Obligations.InboundClassesPartitionAndCount : Prop :=
  (∀ w : Vector Byte Config.IN_LEN,
    (tryDecode w = .error .badHeader ↔ w[0] ≠ 0xFF#8) ∧
    (tryDecode w = .error .badChecksum ↔ w[0] = 0xFF#8 ∧ w[3] ≠ sum8 [w[0], w[1], w[2]]) ∧
    ((∃ v, tryDecode w = .ok v) ↔ w[0] = 0xFF#8 ∧ w[3] = sum8 [w[0], w[1], w[2]])) ∧
  Nat.card { b : Byte × Byte × Byte × Byte // ∃ v, tryDecode #v[b.1, b.2.1, b.2.2.1, b.2.2.2] = .ok v } =
    2 ^ 16 ∧
  Nat.card { b : Byte × Byte × Byte × Byte //
    tryDecode #v[b.1, b.2.1, b.2.2.1, b.2.2.2] = .error .badChecksum } = 2 ^ 24 - 2 ^ 16 ∧
  Nat.card { b : Byte × Byte × Byte × Byte //
    tryDecode #v[b.1, b.2.1, b.2.2.1, b.2.2.2] = .error .badHeader } = 2 ^ 32 - 2 ^ 24

/-- R84: the closed form of the inbound checksum. -/
def Obligations.InboundChecksumClosedForm : Prop :=
  ∀ w : Vector Byte Config.IN_LEN, w[0] = 0xFF#8 →
    ((∃ v, tryDecode w = .ok v) ↔ w[3].toNat = (w[1].toNat + w[2].toNat + 0xFF) % 256) ∧
    ((∃ v, tryDecode w = .ok v) ↔ (w[3].toNat : Int) = (w[1].toNat + w[2].toNat - 1 : Int) % 256)

/-- R125's detection clause: one byte of a valid frame changed to any other value fails, BadHeader in byte 0
and BadChecksum in the others. -/
def Obligations.SingleByteChangeDetected : Prop :=
  ∀ (w : Vector Byte Config.IN_LEN) (v : BitVec Config.VALUE_W) (i : Fin 4) (b : Byte),
    tryDecode w = .ok v → b ≠ w[i.val] →
      tryDecode (w.set i.val b) = .error (if i = 0 then .badHeader else .badChecksum)

/-- R200: the status codes, and the cause of each error. -/
def Obligations.StatusCodesNameTheErrors : Prop :=
  (∀ (opcode : BitVec Config.OPCODE_W) (payload : List Byte),
    encStatus (encodeFrame opcode payload) = if 12 < payload.length then 1 else 0) ∧
  (∀ w : Vector Byte Config.IN_LEN,
    decoderStatus (tryDecode w) =
      if w[0] ≠ 0xFF#8 then 1 else if w[3] ≠ sum8 [w[0], w[1], w[2]] then 2 else 0)

/-- R206: no operation of the block gives its caller a decoder error; the unit-level call of `try_decode`
is no operation (R76). -/
def Obligations.DecoderErrorsNeverSurface : Prop :=
  ∀ (i : Instr) (s t : State) (e : DecodeError), (∀ candidate, i ≠ .dec candidate) →
    exec i s = .next t → OpOutcome.decodeError e ∈ t.outcomes → OpOutcome.decodeError e ∈ s.outcomes

/-! ### RXC and RXB (spec/42_resync.md) -/

/-- R147: `parse` satisfies its recursion; RXC on an open connection returns exactly the values and leaves
exactly the residual that `parse` gives for the buffer and the chunk; and the position walk is the same
function. -/
def Obligations.RxcComputesParse : Prop :=
  (∀ bytes : List Byte, parse bytes =
    if h : 4 ≤ bytes.length then
      match tryDecode (window bytes h) with
      | .ok v => (v :: (parse (bytes.drop 4)).1, (parse (bytes.drop 4)).2)
      | .error _ => parse (bytes.drop 1)
    else ([], bytes)) ∧
  (∀ (chunk : List Byte) (s : State), MainLine s → s.connOpen = true →
    ∃ (t : State) (xs : List Sample), exec (.rxc chunk) s = .next t ∧
      t.outcomes = s.outcomes ++ [.samples xs] ∧
      xs.map Sample.value = (parse (s.buf ++ chunk)).1 ∧ t.buf = (parse (s.buf ++ chunk)).2) ∧
  (∀ bytes : List Byte, walk bytes = parse bytes)

/-- RXC's whole next state on an open connection: buffer, samples with their draws in order, the number of
draws, and nothing else (R140, R144, R145). The draws' numbering is the model's (log entry 5); the stamps
are free. -/
def Obligations.RxcNextState : Prop :=
  ∀ (chunk : List Byte) (s : State), MainLine s → s.connOpen = true →
    exec (.rxc chunk) s = .next { s with
      buf := (parse (s.buf ++ chunk)).2
      outcomes := s.outcomes ++ [.samples (stamped s.tsDraws (parse (s.buf ++ chunk)).1)]
      tsDraws := s.tsDraws + (parse (s.buf ++ chunk)).1.length }

/-- R148: however a stream is cut into chunks, the values returned, in order, and the final buffer are those
of the whole stream. From any quiescent buffer, the empty one of the rule included. That the chunks' records
stand in `pending` is log entry 1. -/
def Obligations.ChunkingNeverChangesTheValues : Prop :=
  ∀ (chunks : List (List Byte)) (s : State), MainLine s → s.connOpen = true → Quiescent s →
    ∃ (t : State) (results : List OpOutcome),
      run chunks.length { s with pending := rxcMoves chunks } = .next t ∧
      t.outcomes = s.outcomes ++ results ∧ results.length = chunks.length ∧
      results.flatMap valuesOf = (parse (s.buf ++ chunks.flatten)).1 ∧
      t.buf = (parse (s.buf ++ chunks.flatten)).2 ∧ t.connOpen = true

/-- R149: folding `RxByte` over a chunk from a quiescent buffer gives RXC's values and RXC's final buffer,
and the register never holds more than 3 bytes. -/
def Obligations.ByteSerialMachineRefinesRxc : Prop :=
  (∀ (chunk : List Byte) (s : State), MainLine s → s.connOpen = true → Quiescent s →
    ∃ (t : State) (xs : List Sample), exec (.rxc chunk) s = .next t ∧
      t.outcomes = s.outcomes ++ [.samples xs] ∧
      xs.map Sample.value = (rxBytes s.buf chunk).1 ∧ t.buf = (rxBytes s.buf chunk).2) ∧
  (∀ (w : List Byte) (x : Byte), w.length ≤ 3 → (rxByte w x).2.length ≤ 3)

/-- R150: RXB is RXC with a one-byte chunk, and its effect is one `RxByte`: with at most 2 bytes before, the
byte is appended and nothing emitted; with 3, the one window is consumed or one byte is dropped. That the
stamp is the draw of the state's counter, and that the counter advances, is the model's choice (log entry 5);
the stamp is free. -/
def Obligations.RxbIsOneRxByte : Prop :=
  ∀ (x : Byte) (s : State), MainLine s → s.connOpen = true → Quiescent s →
    exec (.rxb x) s = exec (.rxc [x]) s ∧
    exec (.rxb x) s = .next { s with
      buf := (rxByte s.buf x).2
      outcomes := s.outcomes ++ [.samples (stamped s.tsDraws (rxByte s.buf x).1.toList)]
      tsDraws := s.tsDraws + (rxByte s.buf x).1.toList.length } ∧
    (s.buf.length ≤ 2 → rxByte s.buf x = (none, s.buf ++ [x])) ∧
    (s.buf.length = 3 → (∃ v, rxByte s.buf x = (some v, [])) ∨
      rxByte s.buf x = (none, (s.buf ++ [x]).drop 1))

/-- R142: the drain loop needs at most N - 3 steps, a larger bound gives the same answer, and at most N / 4
samples come out of it. -/
def Obligations.DrainLoopTerminates : Prop :=
  ∀ (s : State) (out : List Sample),
    (∀ n, s.buf.length - 3 ≤ n → drain n s out = drain (s.buf.length - 3) s out) ∧
    (drainActions s.buf).length ≤ s.buf.length - 3 ∧
    (drain s.buf.length s out).1.length ≤ out.length + s.buf.length / 4

/-- R143: RXC leaves at most 3 bytes, a suffix of the buffer before and the chunk. -/
def Obligations.RxcLeavesAShortSuffix : Prop :=
  ∀ (chunk : List Byte) (s : State), MainLine s → s.connOpen = true →
    ∃ t : State, exec (.rxc chunk) s = .next t ∧ t.buf.length ≤ 3 ∧ t.buf <:+ s.buf ++ chunk

/-- R153: an empty chunk on an open connection returns no sample and leaves the block's state unchanged. -/
def Obligations.EmptyChunkChangesNothing : Prop :=
  ∀ s : State, MainLine s → s.connOpen = true → Quiescent s →
    exec (.rxc []) s = .next { s with outcomes := s.outcomes ++ [.samples []] }

/-- R154: RXC, and RXB with it, is refused RxClosed while no connection is open, with R209's effect. -/
def Obligations.RxcWhileClosedRefused : Prop :=
  ∀ (chunk : List Byte) (x : Byte) (s : State), MainLine s → s.connOpen = false →
    exec (.rxc chunk) s =
      .next { s with refusalMark := true, outcomes := s.outcomes ++ [.refused .rxClosed] } ∧
    exec (.rxb x) s =
      .next { s with refusalMark := true, outcomes := s.outcomes ++ [.refused .rxClosed] }

/-- R156: every byte is consumed in exactly one sample, dropped exactly once, or still pending. -/
def Obligations.RxcConservesBytes : Prop :=
  ∀ (chunk : List Byte) (s : State), MainLine s → s.connOpen = true →
    ∃ (t : State) (xs : List Sample), exec (.rxc chunk) s = .next t ∧
      t.outcomes = s.outcomes ++ [.samples xs] ∧
      s.buf.length + chunk.length = 4 * xs.length + dropCount (s.buf ++ chunk) + t.buf.length

/-- R151(a): where no window before a valid frame is valid, RXC emits that frame's value first and goes on
right after it. -/
def Obligations.RxcRecoversTheNextFrame : Prop :=
  ∀ (before rest chunk : List Byte) (w : Vector Byte Config.IN_LEN) (v : BitVec Config.VALUE_W) (s : State),
    MainLine s → s.connOpen = true → s.buf ++ chunk = before ++ w.toList ++ rest → tryDecode w = .ok v →
    (∀ (q : Nat) (u : Vector Byte Config.IN_LEN), q < before.length →
      candidateOf (((s.buf ++ chunk).drop q).take 4) = some u → isInboundFrame u = false) →
    ∃ (t : State) (xs : List Sample), exec (.rxc chunk) s = .next t ∧
      t.outcomes = s.outcomes ++ [.samples xs] ∧
      xs.map Sample.value = v :: (parse rest).1 ∧ t.buf = (parse rest).2

/-- R151(b): a run of back-to-back valid frames from an empty buffer is emitted whole, in order, and
alignment holds to its end. -/
def Obligations.RxcStaysAlignedOnValidFrames : Prop :=
  ∀ (frames : List (Vector Byte Config.IN_LEN)) (values : List (BitVec Config.VALUE_W)) (s : State),
    MainLine s → s.connOpen = true → s.buf = [] → frames.map tryDecode = values.map Except.ok →
    ∃ (t : State) (xs : List Sample), exec (.rxc (frames.map Vector.toList).flatten) s = .next t ∧
      t.outcomes = s.outcomes ++ [.samples xs] ∧ xs.map Sample.value = values ∧ t.buf = []

/-- R151(c): bytes that hold no 0xFF before a valid frame cost exactly those bytes. -/
def Obligations.HeaderlessRunCostsItself : Prop :=
  ∀ (garbage : List Byte) (w : Vector Byte Config.IN_LEN) (v : BitVec Config.VALUE_W) (s : State),
    MainLine s → s.connOpen = true → s.buf = [] → 0xFF#8 ∉ garbage → tryDecode w = .ok v →
    ∃ (t : State) (xs : List Sample), exec (.rxc (garbage ++ w.toList)) s = .next t ∧
      t.outcomes = s.outcomes ++ [.samples xs] ∧ xs.map Sample.value = [v] ∧ t.buf = []

/-- R151(d), (e): one garbage byte before a valid frame leaves exactly the frame's sample, unless the byte
is 0xFF and `lo = hi - 2`; in that case the false window is consumed (spec/95_test_vectors.md X13). -/
def Obligations.OneGarbageByteBeforeAFrame : Prop :=
  ∀ (g hi lo cs : Byte) (s : State), MainLine s → s.connOpen = true → s.buf = [] →
    cs.toNat = (0xFF + hi.toNat + lo.toNat) % 256 →
    ∃ (t : State) (xs : List Sample), exec (.rxc [g, 0xFF, hi, lo, cs]) s = .next t ∧
      t.outcomes = s.outcomes ++ [.samples xs] ∧
      (¬(g = 0xFF#8 ∧ lo = hi - 2) → xs.map Sample.value = [hi ++ lo] ∧ t.buf = []) ∧
      (g = 0xFF#8 ∧ lo = hi - 2 → xs.map Sample.value = [0xFF#8 ++ hi] ∧ t.buf = [cs])

/-- R152: the three ways in which the algorithm loses frames, reproduced: a false lock, one corrupted byte
that loses two frames, and a misalignment that lasts for every number of repeated frames. -/
def Obligations.FalseLocksAreReproduced : Prop :=
  ∀ s : State, MainLine s → s.connOpen = true → s.buf = [] →
    (∃ (t : State) (xs : List Sample), exec (.rxc [0xFF, 0x14, 0xFF, 0x12, 0x34, 0x45]) s = .next t ∧
      t.outcomes = s.outcomes ++ [.samples xs] ∧
      xs.map Sample.value = [0x14FF#16] ∧ t.buf = [0x34, 0x45]) ∧
    (∃ (t : State) (xs : List Sample),
      exec (.rxc [0xFF, 0x01, 0x00, 0xFF, 0xFF, 0x14, 0x12, 0x25]) s = .next t ∧
      t.outcomes = s.outcomes ++ [.samples xs] ∧ xs.map Sample.value = [0xFF14#16] ∧ t.buf = [0x25]) ∧
    drainActions [0xFF, 0x01, 0x00, 0xFF, 0xFF, 0x14, 0x12, 0x25] =
      [.drop .badChecksum, .drop .badHeader, .drop .badHeader, .consume 0xFF14#16] ∧
    (∀ k : Nat, ∃ (t : State) (xs : List Sample),
      exec (.rxc (0xFF :: (List.replicate k [0xFF, 0x01, 0xFF, 0xFF]).flatten)) s = .next t ∧
      t.outcomes = s.outcomes ++ [.samples xs] ∧
      xs.map Sample.value = List.replicate k 0xFF01#16 ∧ t.buf = [0xFF])

/-! ### OPEN, CLOSE, RESET (spec/43_connection.md) -/

/-- R170: OPEN, from every state, an open connection's included. -/
def Obligations.OpenStartsAnEmptyBuffer : Prop :=
  ∀ s : State, exec .openConn s =
    .next { s with connOpen := true, buf := [], outcomes := s.outcomes ++ [.done] }

/-- R171: CLOSE, from every state; no sample for the discarded bytes. -/
def Obligations.CloseDiscardsTheBuffer : Prop :=
  ∀ s : State, exec .closeConn s =
    .next { s with connOpen := false, buf := [], outcomes := s.outcomes ++ [.done] }

/-- R172: RESET, from every state. That the run's own fields stay is log entry 14. -/
def Obligations.ResetGivesThePowerOnState : Prop :=
  ∀ s : State, exec .reset s =
    .next { s with connOpen := State.reset.connOpen, buf := State.reset.buf,
                   outcomes := s.outcomes ++ [.done] }

/-- R43: OPEN, CLOSE and RESET are idempotent on `S`. -/
def Obligations.LifecycleOperationsIdempotent : Prop :=
  ∀ (i : Instr) (s : State), i = .openConn ∨ i = .closeConn ∨ i = .reset →
    ∃ t u : State, exec i s = .next t ∧ exec i t = .next u ∧ arch u = arch t

/-- R173: bytes pending at a CLOSE, a RESET or a re-OPEN are lost: after the next OPEN an RXC answers as if
they had never come. The last clause is one OPEN alone, on an open connection with pending bytes too
(program P6). -/
def Obligations.PendingBytesLostAtReopen : Prop :=
  (∀ (i : Instr) (chunk : List Byte) (s : State), MainLine s →
    i = .openConn ∨ i = .closeConn ∨ i = .reset →
    ∃ (t u v : State) (xs : List Sample),
      exec i s = .next t ∧ exec .openConn t = .next u ∧ exec (.rxc chunk) u = .next v ∧
      v.outcomes = u.outcomes ++ [.samples xs] ∧
      xs.map Sample.value = (parse chunk).1 ∧ v.buf = (parse chunk).2) ∧
  (∀ (chunk : List Byte) (s : State), MainLine s →
    ∃ (u v : State) (xs : List Sample),
      exec .openConn s = .next u ∧ exec (.rxc chunk) u = .next v ∧
      v.outcomes = u.outcomes ++ [.samples xs] ∧
      xs.map Sample.value = (parse chunk).1 ∧ v.buf = (parse chunk).2)

/-- R24: the flag is written by OPEN, CLOSE and RESET alone, and as they say. -/
def Obligations.ConnOpenWrittenByLifecycleOnly : Prop :=
  ∀ (i : Instr) (s t : State), exec i s = .next t →
    t.connOpen = if i = .openConn then true
      else if i = .closeConn ∨ i = .reset then false else s.connOpen

/-! ### Refusals (spec/60_exceptions.md R209) -/

/-- R78: a record with a reserved code is refused ReservedOp, with R209's effect. -/
def Obligations.ReservedCodesRefused : Prop :=
  ∀ s : State,
    exec .reserved000 s =
      .next { s with refusalMark := true, outcomes := s.outcomes ++ [.refused .reservedOp] } ∧
    exec .reserved110 s =
      .next { s with refusalMark := true, outcomes := s.outcomes ++ [.refused .reservedOp] } ∧
    exec .reserved111 s =
      .next { s with refusalMark := true, outcomes := s.outcomes ++ [.refused .reservedOp] }

/-- R209: a refused instruction changes no field of `S`, gives no output and sets the run's mark. The last
two clauses are about the model's own fields. -/
def Obligations.RefusedInstructionChangesNoState : Prop :=
  ∀ (i : Instr) (s t : State) (r : RefusalReason), exec i s = .next t →
    t.outcomes = s.outcomes ++ [.refused r] →
      arch t = arch s ∧ (observe t).outputs = (observe s).outputs ∧ t.refusalMark = true ∧
      t.pending = s.pending ∧ t.tsDraws = s.tsDraws

/-- R209: no later step clears the mark. -/
def Obligations.RefusalMarkIsNeverCleared : Prop :=
  ∀ s t : State, step s = .next t → s.refusalMark = true → t.refusalMark = true

/-- R233, as log entry 10 applies it: a record begun while another operation is in progress is refused
Overlap, with R209's effect. That Overlap comes before every other reason is the model's choice (log entry
22). -/
def Obligations.OverlappingRecordRefused : Prop :=
  ∀ (r : OpRecord) (rest : List HostMove) (s : State), s.pending = .overlap r :: rest →
    step s = .next { s with pending := rest, refusalMark := true,
                            outcomes := s.outcomes ++ [.refused .overlap] }

/-! ### The machine as a whole -/

/-- R31: the value of every field of `S` after reset. -/
def Obligations.ResetStateIsTheSpecs : Prop :=
  State.reset.connOpen = false ∧ State.reset.buf = []

/-- When the host's next move decodes and overlaps nothing, a step is `exec` of the instruction, with the
move taken off the host's list. -/
def Obligations.StepRunsTheDecodedInstruction : Prop :=
  ∀ (m : HostMove) (rest : List HostMove) (i : Instr) (s : State),
    s.pending = m :: rest → m.overlaps = false → decodeMove m = .ok i →
      step s = exec i { s with pending := rest }

/-- The two other ends of a step, both the model's (log entries 1 and 2): without a move the state stays,
and a move that is no record stops by name. -/
def Obligations.StepWithoutAnInstruction : Prop :=
  (∀ s : State, s.pending = [] → step s = .next s) ∧
  (∀ (m : HostMove) (rest : List HostMove) (why : DecodeReject) (s : State),
    s.pending = m :: rest → m.overlaps = false → decodeMove m = .error why →
      step s = .refused (.malformedRecord why))

/-- R14, R238: every instruction completes in one step, from every state, and ends in exactly one way. R238
speaks of operations that are not refused; that a refused one also answers a next state, with the mark set, is
read from R209 (log entry 3). -/
def Obligations.EveryInstructionEndsInOneWay : Prop :=
  ∀ (i : Instr) (s : State), ∃ (t : State) (o : OpOutcome),
    exec i s = .next t ∧ t.outcomes = s.outcomes ++ [o] ∧ t.pending = s.pending ∧
    t.refusalMark = (s.refusalMark || o.isRefusal)

/-- R21, R25, R101, R122: everything but RXC, RXB, OPEN, CLOSE and RESET leaves `S` and the number of
draws unchanged. -/
def Obligations.StatelessInstructionsLeaveTheState : Prop :=
  ∀ (i : Instr) (s t : State), exec i s = .next t →
    (∀ chunk, i ≠ .rxc chunk) → (∀ x, i ≠ .rxb x) → i ≠ .openConn → i ≠ .closeConn → i ≠ .reset →
      arch t = arch s ∧ t.tsDraws = s.tsDraws ∧ t.pending = s.pending

/-- R27: no operation reads an earlier outcome: with others in their place it does the same to `S` and ends
the same way. R209, of the run's mark: later records apply whatever the mark is (log entry 3). -/
def Obligations.OutcomesAreNeverRead : Prop :=
  ∀ (i : Instr) (s t : State) (earlier : List OpOutcome) (mark : Bool), exec i s = .next t →
    ∃ o : OpOutcome, t.outcomes = s.outcomes ++ [o] ∧
      exec i { s with outcomes := earlier, refusalMark := mark } =
        .next { t with outcomes := earlier ++ [o], refusalMark := mark || o.isRefusal }

/-- R22, R23, R209: every step keeps the machine's invariant. -/
def Obligations.EveryStepKeepsTheInvariant : Prop :=
  ∀ s t : State, BlockInv s → step s = .next t → BlockInv t

/-- R22, R23: the invariant holds after reset. Its clause about the run's mark is R209's and R240's, and rests
on a reset state with the mark unset and no outcomes, which is the model's (log entry 6). -/
def Obligations.InvariantHoldsAtReset : Prop := BlockInv State.reset

/-- R29, R232: no step changes the parameter FW_REVISION. That it comes with the state is log entry 11. -/
def Obligations.NoStepChangesTheRevision : Prop :=
  ∀ s t : State, step s = .next t → t.fwRevision = s.fwRevision

/-- R215, R240: while the host keeps its duties, every step completes, nothing is refused, no ENC is
rejected, and the duties still to come are kept, for the bytes still to deliver. The reading of the duties is
log entry 21. -/
def Obligations.DutifulHostIsNeverRefused : Prop :=
  ∀ (received : List (List Byte)) (s : State), Dutiful received s →
    ∃ (t : State) (left : List (List Byte)), step s = .next t ∧ Dutiful left t

/-- R215, R236, R147: a host that keeps its duties from power-on to the end of its moves is refused nothing,
and gets exactly the values of the byte streams received, connection by connection, each read by `parse` from
its start. The reading of the duties is log entry 21. -/
def Obligations.DutifulRunReturnsTheStreamsValues : Prop :=
  ∀ (received : List (List Byte)) (s : State), MainLine s →
    HostSide.keepsDuties ⟨.powerOn, received⟩ s.pending = true →
    ∃ (t : State) (results : List OpOutcome),
      run s.pending.length s = .next t ∧ t.pending = [] ∧ t.refusalMark = s.refusalMark ∧
      t.outcomes = s.outcomes ++ results ∧ OpOutcome.encError .invalidPayloadLength ∉ results ∧
      results.flatMap valuesOf = received.flatMap (fun stream => (parse stream).1)

/-- R240: a run whose moves are all records ends when its last move was applied, with one outcome per
move. -/
def Obligations.RunAppliesEveryMove : Prop :=
  ∀ s : State, (∀ m ∈ s.pending, ∃ i, decodeMove m = .ok i) →
    ∃ t : State, run s.pending.length s = .next t ∧ t.pending = [] ∧
      t.outcomes.length = s.outcomes.length + s.pending.length
end

