-- ==== Sys2Proof/Laws/Decode.lean ====
section
/-! SUPPORT. The packing of bytes into table words (spec/30_encoding.md R69), and the decoder's cases. -/

namespace Sys2Proof

@[simp] theorem bytesOfWord_length (n w : Nat) : (bytesOfWord n w).length = n := by
  induction n with
  | zero => rfl
  | succ n ih => simp [bytesOfWord, ih]

/-- A packed sequence fits its bits. -/
theorem wordOfBytes_lt (bytes : List Byte) : wordOfBytes bytes < 2 ^ (8 * bytes.length) := by
  induction bytes with
  | nil => simp [wordOfBytes]
  | cons b bytes ih =>
    have hb := b.isLt
    have hp : 2 ^ (8 * (bytes.length + 1)) = 2 ^ 8 * 2 ^ (8 * bytes.length) := by
      rw [← Nat.pow_add]; congr 1; omega
    simp only [wordOfBytes, List.length_cons]
    rw [← Nat.shiftLeft_add_eq_or_of_lt ih, Nat.shiftLeft_eq, hp]
    nlinarith

/-- A packed sequence is its first byte above the rest. -/
theorem wordOfBytes_cons (b : Byte) (bytes : List Byte) :
    wordOfBytes (b :: bytes) = b.toNat * 2 ^ (8 * bytes.length) + wordOfBytes bytes := by
  simp only [wordOfBytes]
  rw [← Nat.shiftLeft_add_eq_or_of_lt (wordOfBytes_lt bytes), Nat.shiftLeft_eq]

/-- Bits above the bytes asked for are not read. -/
theorem bytesOfWord_add_mul (n k w : Nat) : bytesOfWord n (k * 2 ^ (8 * n) + w) = bytesOfWord n w := by
  induction n generalizing k w with
  | zero => rfl
  | succ n ih =>
    have hp : 2 ^ (8 * (n + 1)) = 2 ^ 8 * 2 ^ (8 * n) := by rw [← Nat.pow_add]; congr 1; omega
    have hw : k * 2 ^ (8 * (n + 1)) + w = (k * 2 ^ 8) * 2 ^ (8 * n) + w := by rw [hp]; ring
    simp only [bytesOfWord]
    rw [hw, ih (k * 2 ^ 8) w]
    congr 1
    apply BitVec.eq_of_toNat_eq
    simp only [BitVec.toNat_ofNat, Nat.shiftRight_eq_div_pow]
    rw [Nat.add_comm, Nat.add_mul_div_right _ _ (by positivity)]
    omega

/-- Unpacking a packed sequence gives it back. -/
theorem bytesOfWord_wordOfBytes (bytes : List Byte) :
    bytesOfWord bytes.length (wordOfBytes bytes) = bytes := by
  induction bytes with
  | nil => rfl
  | cons b bytes ih =>
    have hb := b.isLt
    simp only [List.length_cons, bytesOfWord]
    rw [wordOfBytes_cons, bytesOfWord_add_mul, ih]
    congr 1
    apply BitVec.eq_of_toNat_eq
    rw [BitVec.toNat_ofNat, Nat.shiftRight_eq_div_pow, Nat.add_comm,
      Nat.add_mul_div_right _ _ (by positivity), Nat.div_eq_of_lt (wordOfBytes_lt bytes)]
    omega

@[simp] theorem decodeMove_tryDecode (candidate : List Byte) :
    decodeMove (.tryDecode candidate) = .ok (.dec candidate) := rfl

@[simp] theorem decodeMove_wireFrame (bytes : List Byte) :
    decodeMove (.wireFrame bytes) = .ok (.outboundFrame bytes) := rfl

@[simp] theorem decodeMove_issue (r : OpRecord) : decodeMove (.issue r) = decodeRecord r := rfl

/-- The encoder never makes a move that overlaps another. -/
@[simp] theorem encode_overlaps (i : Instr) : (encode i).overlaps = false := by
  cases i <;> rfl

end Sys2Proof
end

