-- ==== Sys2Proof/Laws/Operands.lean ====
section
/-! SUPPORT. The operand forms: what the checksum, the splits and the window are. -/

namespace Sys2Proof.Machine

/-! ### The checksum -/

@[simp] theorem sum8_nil : sum8 [] = 0#8 := rfl

theorem sum8_toNat (bytes : List Byte) : (sum8 bytes).toNat = (bytes.map BitVec.toNat).sum % 256 := by
  simp only [sum8, BitVec.toNat_ofNat, Config.CSUM_W]

/-- The checksum of a longer sequence is the wrapping sum of the parts. -/
theorem sum8_append (xs ys : List Byte) : sum8 (xs ++ ys) = sum8 xs + sum8 ys := by
  apply BitVec.eq_of_toNat_eq
  simp [sum8]

theorem sum8_cons (b : Byte) (bytes : List Byte) : sum8 (b :: bytes) = b + sum8 bytes := by
  apply BitVec.eq_of_toNat_eq
  simp [sum8]

/-- Padding zeros add nothing (spec/30_encoding.md R85). -/
theorem sum8_replicate_zero (n : Nat) : sum8 (List.replicate n 0#8) = 0#8 := by
  simp [sum8]

/-! ### Opcode and value -/

theorem opcodeHi_eq (opcode : BitVec Config.OPCODE_W) : opcodeHi opcode = opcode.extractLsb' 8 8 := by
  apply BitVec.eq_of_toNat_eq
  simp [opcodeHi]

theorem opcodeLo_eq (opcode : BitVec Config.OPCODE_W) : opcodeLo opcode = opcode.extractLsb' 0 8 := by
  apply BitVec.eq_of_toNat_eq
  have h : opcode.toNat &&& 255 = opcode.toNat % 256 := Nat.and_two_pow_sub_one_eq_mod opcode.toNat 8
  have h255 : (0xFF : BitVec Config.OPCODE_W).toNat = 255 := rfl
  simp only [opcodeLo, BitVec.toNat_setWidth, BitVec.toNat_and, h255, h, BitVec.extractLsb'_toNat,
    Nat.shiftRight_zero]
  omega

/-- The opcode is its two bytes, high byte first (spec/20_memory.md R46). -/
theorem opcodeHi_append_opcodeLo (opcode : BitVec Config.OPCODE_W) :
    opcodeHi opcode ++ opcodeLo opcode = opcode := by
  rw [opcodeHi_eq, opcodeLo_eq]
  apply BitVec.eq_of_toNat_eq
  have h := opcode.isLt
  simp only [Config.OPCODE_W] at h
  simp only [BitVec.toNat_append, BitVec.extractLsb'_toNat, Nat.shiftRight_zero]
  rw [← Nat.shiftLeft_add_eq_or_of_lt (by omega), Nat.shiftLeft_eq, Nat.shiftRight_eq_div_pow]
  omega

/-- The assembled value is its two bytes, high byte first (R66). -/
theorem assembleValue_eq (hi lo : Byte) : assembleValue hi lo = hi ++ lo := by
  apply BitVec.eq_of_toNat_eq
  have h := hi.isLt
  have h' := lo.isLt
  simp only [assembleValue, Config.VALUE_W, BitVec.toNat_or, BitVec.toNat_shiftLeft, BitVec.toNat_setWidth,
    BitVec.toNat_append, Nat.shiftLeft_eq]
  rw [Nat.mod_eq_of_lt (show hi.toNat < 2 ^ 16 by omega), Nat.mod_eq_of_lt (show lo.toNat < 2 ^ 16 by omega),
    Nat.mod_eq_of_lt (show hi.toNat * 2 ^ 8 < 2 ^ 16 by omega)]

/-! ### Windows -/

@[simp] theorem window_toList (bytes : List Byte) (h : Config.IN_LEN ≤ bytes.length) :
    (window bytes h).toList = bytes.take Config.IN_LEN := by
  simp [window]

/-- A window depends on the first `IN_LEN` bytes alone (spec/42_resync.md R141). -/
@[simp] theorem window_cons (b₀ b₁ b₂ b₃ : Byte) (rest : List Byte)
    (h : Config.IN_LEN ≤ (b₀ :: b₁ :: b₂ :: b₃ :: rest).length) :
    window (b₀ :: b₁ :: b₂ :: b₃ :: rest) h = #v[b₀, b₁, b₂, b₃] := rfl

/-- What stands behind a window's bytes does not change it. -/
theorem window_append (bytes more : List Byte) (h : Config.IN_LEN ≤ bytes.length)
    (h' : Config.IN_LEN ≤ (bytes ++ more).length) : window (bytes ++ more) h' = window bytes h := by
  apply Vector.toList_inj.mp
  rw [window_toList, window_toList, List.take_append_of_le_length h]

/-- A sequence that begins with a candidate's bytes has that candidate as its window. -/
theorem window_toList_append (w : Vector Byte Config.IN_LEN) (rest : List Byte)
    (h : Config.IN_LEN ≤ (w.toList ++ rest).length) : window (w.toList ++ rest) h = w := by
  apply Vector.toList_inj.mp
  rw [window_toList, List.take_append_of_le_length (by simp), List.take_of_length_le (by simp)]

theorem candidateOf_of_length {bytes : List Byte} (h : bytes.length = Config.IN_LEN) :
    candidateOf bytes = some ⟨bytes.toArray, h⟩ := by
  simp [candidateOf, h]

theorem candidateOf_eq_none {bytes : List Byte} (h : bytes.length ≠ Config.IN_LEN) :
    candidateOf bytes = none := by
  simp [candidateOf, h]

@[simp] theorem candidateOf_toList (w : Vector Byte Config.IN_LEN) : candidateOf w.toList = some w := by
  rw [candidateOf_of_length (by simp)]
  rfl

end Sys2Proof.Machine
end

