-- ==== Sys2Proof/Laws/Decoder.lean ====
section
/-! SUPPORT. The FrameDecoder: its three answers and when each is given. -/

namespace Sys2Proof.Machine

/-- Everything `try_decode` can answer (spec/41_decoder.md R120). -/
theorem tryDecode_cases (w : Vector Byte Config.IN_LEN) :
    (w[0] ≠ Config.HDR ∧ tryDecode w = .error .badHeader) ∨
    (w[0] = Config.HDR ∧ w[3] ≠ sum8 [w[0], w[1], w[2]] ∧ tryDecode w = .error .badChecksum) ∨
    (w[0] = Config.HDR ∧ w[3] = sum8 [w[0], w[1], w[2]] ∧ tryDecode w = .ok (assembleValue w[1] w[2])) := by
  unfold tryDecode
  by_cases h0 : w[0] = Config.HDR
  · by_cases h3 : w[3] = sum8 [w[0], w[1], w[2]]
    · exact .inr (.inr ⟨h0, h3, by rw [if_neg (not_not.mpr h0), if_neg (not_not.mpr h3)]⟩)
    · exact .inr (.inl ⟨h0, h3, by rw [if_neg (not_not.mpr h0), if_pos h3]⟩)
  · exact .inl ⟨h0, if_pos h0⟩

/-- A window decodes exactly when spec/30_encoding.md R64 calls it a valid inbound frame. -/
theorem tryDecode_ok_iff (w : Vector Byte Config.IN_LEN) (v : BitVec Config.VALUE_W) :
    tryDecode w = .ok v ↔ isInboundFrame w = true ∧ v = assembleValue w[1] w[2] := by
  rcases tryDecode_cases w with ⟨h0, h⟩ | ⟨h0, h3, h⟩ | ⟨h0, h3, h⟩
  · simp only [h, isInboundFrame, Bool.and_eq_true, beq_iff_eq]
    exact ⟨fun e => (nomatch e), fun e => absurd e.1.1 h0⟩
  · simp only [h, isInboundFrame, Bool.and_eq_true, beq_iff_eq]
    exact ⟨fun e => (nomatch e), fun e => absurd e.1.2 h3⟩
  · simp only [h, isInboundFrame, Bool.and_eq_true, beq_iff_eq]
    exact ⟨fun e => ⟨⟨h0, h3⟩, (Except.ok.inj e).symm⟩, fun e => by rw [e.2]⟩

/-- A window that is no valid frame gives one of the two errors. -/
theorem tryDecode_error_of_invalid {w : Vector Byte Config.IN_LEN} (h : isInboundFrame w = false) :
    ∃ e, tryDecode w = .error e := by
  cases hd : tryDecode w with
  | error e => exact ⟨e, rfl⟩
  | ok v =>
    rw [((tryDecode_ok_iff w v).mp hd).1] at h
    cases h

end Sys2Proof.Machine
end

