-- ==== Sys2Proof/Laws/Encoder.lean ====
section
/-! SUPPORT. The FrameEncoder: its two outcomes and the bytes of a frame. -/

namespace Sys2Proof.Machine

theorem padPayload_length (payload : List Byte) (h : payload.length ≤ Config.MAX_PAYLOAD) :
    (padPayload payload).length = Config.MAX_PAYLOAD := by
  simp [padPayload, h]

/-- An accepted ENC: a frame exists, and its bytes are the body and the body's checksum. -/
theorem encodeFrame_of_le (opcode : BitVec Config.OPCODE_W) (payload : List Byte)
    (h : payload.length ≤ Config.MAX_PAYLOAD) :
    ∃ f : Vector Byte Config.OUT_LEN, encodeFrame opcode payload = .ok f ∧
      f.toList = encodeBody opcode payload ++ [sum8 (encodeBody opcode payload)] := by
  unfold encodeFrame
  rw [dif_pos h]
  exact ⟨_, rfl, by simp⟩

/-- A rejected ENC: there is no frame. -/
theorem encodeFrame_of_gt (opcode : BitVec Config.OPCODE_W) (payload : List Byte)
    (h : ¬payload.length ≤ Config.MAX_PAYLOAD) :
    encodeFrame opcode payload = .error .invalidPayloadLength := by
  simp [encodeFrame, h]

/-- What a frame of the encoder tells of its operands. -/
theorem encodeFrame_ok {opcode : BitVec Config.OPCODE_W} {payload : List Byte}
    {f : Vector Byte Config.OUT_LEN} (h : encodeFrame opcode payload = .ok f) :
    payload.length ≤ Config.MAX_PAYLOAD ∧
      f.toList = encodeBody opcode payload ++ [sum8 (encodeBody opcode payload)] := by
  by_cases hl : payload.length ≤ Config.MAX_PAYLOAD
  · obtain ⟨g, hg, hb⟩ := encodeFrame_of_le opcode payload hl
    rw [hg] at h
    cases h
    exact ⟨hl, hb⟩
  · rw [encodeFrame_of_gt opcode payload hl] at h
    cases h

end Sys2Proof.Machine
end

