-- ==== Sys2Proof/Laws/State.lean ====
section
/-! SUPPORT. One lemma per field per update of the state, so that no later proof unfolds an update. -/

namespace Sys2Proof.Machine

@[simp] theorem State.endWith_connOpen (o : OpOutcome) (s : State) : (s.endWith o).connOpen = s.connOpen := rfl
@[simp] theorem State.endWith_buf (o : OpOutcome) (s : State) : (s.endWith o).buf = s.buf := rfl
@[simp] theorem State.endWith_refusalMark (o : OpOutcome) (s : State) : (s.endWith o).refusalMark = s.refusalMark := rfl
@[simp] theorem State.endWith_pending (o : OpOutcome) (s : State) : (s.endWith o).pending = s.pending := rfl
@[simp] theorem State.endWith_outcomes (o : OpOutcome) (s : State) : (s.endWith o).outcomes = s.outcomes ++ [o] := rfl
@[simp] theorem State.endWith_tsDraws (o : OpOutcome) (s : State) : (s.endWith o).tsDraws = s.tsDraws := rfl
@[simp] theorem State.endWith_fwRevision (o : OpOutcome) (s : State) : (s.endWith o).fwRevision = s.fwRevision := rfl

@[simp] theorem State.refuse_connOpen (r : RefusalReason) (s : State) : (s.refuse r).connOpen = s.connOpen := rfl
@[simp] theorem State.refuse_buf (r : RefusalReason) (s : State) : (s.refuse r).buf = s.buf := rfl
@[simp] theorem State.refuse_refusalMark (r : RefusalReason) (s : State) : (s.refuse r).refusalMark = true := rfl
@[simp] theorem State.refuse_pending (r : RefusalReason) (s : State) : (s.refuse r).pending = s.pending := rfl
@[simp] theorem State.refuse_outcomes (r : RefusalReason) (s : State) : (s.refuse r).outcomes = s.outcomes ++ [.refused r] := rfl
@[simp] theorem State.refuse_tsDraws (r : RefusalReason) (s : State) : (s.refuse r).tsDraws = s.tsDraws := rfl
@[simp] theorem State.refuse_fwRevision (r : RefusalReason) (s : State) : (s.refuse r).fwRevision = s.fwRevision := rfl

@[simp] theorem State.afterMove_connOpen (rest : List HostMove) (s : State) : (s.afterMove rest).connOpen = s.connOpen := rfl
@[simp] theorem State.afterMove_buf (rest : List HostMove) (s : State) : (s.afterMove rest).buf = s.buf := rfl
@[simp] theorem State.afterMove_refusalMark (rest : List HostMove) (s : State) : (s.afterMove rest).refusalMark = s.refusalMark := rfl
@[simp] theorem State.afterMove_pending (rest : List HostMove) (s : State) : (s.afterMove rest).pending = rest := rfl
@[simp] theorem State.afterMove_outcomes (rest : List HostMove) (s : State) : (s.afterMove rest).outcomes = s.outcomes := rfl
@[simp] theorem State.afterMove_tsDraws (rest : List HostMove) (s : State) : (s.afterMove rest).tsDraws = s.tsDraws := rfl
@[simp] theorem State.afterMove_fwRevision (rest : List HostMove) (s : State) : (s.afterMove rest).fwRevision = s.fwRevision := rfl

@[simp] theorem State.bufAppend_connOpen (chunk : List Byte) (s : State) : (s.bufAppend chunk).connOpen = s.connOpen := rfl
@[simp] theorem State.bufAppend_buf (chunk : List Byte) (s : State) : (s.bufAppend chunk).buf = s.buf ++ chunk := rfl
@[simp] theorem State.bufAppend_refusalMark (chunk : List Byte) (s : State) : (s.bufAppend chunk).refusalMark = s.refusalMark := rfl
@[simp] theorem State.bufAppend_pending (chunk : List Byte) (s : State) : (s.bufAppend chunk).pending = s.pending := rfl
@[simp] theorem State.bufAppend_outcomes (chunk : List Byte) (s : State) : (s.bufAppend chunk).outcomes = s.outcomes := rfl
@[simp] theorem State.bufAppend_tsDraws (chunk : List Byte) (s : State) : (s.bufAppend chunk).tsDraws = s.tsDraws := rfl
@[simp] theorem State.bufAppend_fwRevision (chunk : List Byte) (s : State) : (s.bufAppend chunk).fwRevision = s.fwRevision := rfl

@[simp] theorem State.bufDrop_connOpen (n : Nat) (s : State) : (s.bufDrop n).connOpen = s.connOpen := rfl
@[simp] theorem State.bufDrop_buf (n : Nat) (s : State) : (s.bufDrop n).buf = s.buf.drop n := rfl
@[simp] theorem State.bufDrop_refusalMark (n : Nat) (s : State) : (s.bufDrop n).refusalMark = s.refusalMark := rfl
@[simp] theorem State.bufDrop_pending (n : Nat) (s : State) : (s.bufDrop n).pending = s.pending := rfl
@[simp] theorem State.bufDrop_outcomes (n : Nat) (s : State) : (s.bufDrop n).outcomes = s.outcomes := rfl
@[simp] theorem State.bufDrop_tsDraws (n : Nat) (s : State) : (s.bufDrop n).tsDraws = s.tsDraws := rfl
@[simp] theorem State.bufDrop_fwRevision (n : Nat) (s : State) : (s.bufDrop n).fwRevision = s.fwRevision := rfl

@[simp] theorem State.setConnection_connOpen (isOpen : Bool) (s : State) : (s.setConnection isOpen).connOpen = isOpen := rfl
@[simp] theorem State.setConnection_buf (isOpen : Bool) (s : State) : (s.setConnection isOpen).buf = [] := rfl
@[simp] theorem State.setConnection_refusalMark (isOpen : Bool) (s : State) : (s.setConnection isOpen).refusalMark = s.refusalMark := rfl
@[simp] theorem State.setConnection_pending (isOpen : Bool) (s : State) : (s.setConnection isOpen).pending = s.pending := rfl
@[simp] theorem State.setConnection_outcomes (isOpen : Bool) (s : State) : (s.setConnection isOpen).outcomes = s.outcomes := rfl
@[simp] theorem State.setConnection_tsDraws (isOpen : Bool) (s : State) : (s.setConnection isOpen).tsDraws = s.tsDraws := rfl
@[simp] theorem State.setConnection_fwRevision (isOpen : Bool) (s : State) : (s.setConnection isOpen).fwRevision = s.fwRevision := rfl

@[simp] theorem State.drawTs_fst (s : State) : s.drawTs.1 = Config.drawTs s.tsDraws := rfl
@[simp] theorem State.drawTs_connOpen (s : State) : s.drawTs.2.connOpen = s.connOpen := rfl
@[simp] theorem State.drawTs_buf (s : State) : s.drawTs.2.buf = s.buf := rfl
@[simp] theorem State.drawTs_refusalMark (s : State) : s.drawTs.2.refusalMark = s.refusalMark := rfl
@[simp] theorem State.drawTs_pending (s : State) : s.drawTs.2.pending = s.pending := rfl
@[simp] theorem State.drawTs_outcomes (s : State) : s.drawTs.2.outcomes = s.outcomes := rfl
@[simp] theorem State.drawTs_tsDraws (s : State) : s.drawTs.2.tsDraws = s.tsDraws + 1 := rfl
@[simp] theorem State.drawTs_fwRevision (s : State) : s.drawTs.2.fwRevision = s.fwRevision := rfl

@[simp] theorem State.withFetchWord_connOpen (s : State) (nbits w : Nat) :
    (s.withFetchWord nbits w).connOpen = s.connOpen := by
  unfold State.withFetchWord; split <;> rfl
@[simp] theorem State.withFetchWord_buf (s : State) (nbits w : Nat) :
    (s.withFetchWord nbits w).buf = s.buf := by
  unfold State.withFetchWord; split <;> rfl
@[simp] theorem State.withFetchWord_refusalMark (s : State) (nbits w : Nat) :
    (s.withFetchWord nbits w).refusalMark = s.refusalMark := by
  unfold State.withFetchWord; split <;> rfl
@[simp] theorem State.withFetchWord_outcomes (s : State) (nbits w : Nat) :
    (s.withFetchWord nbits w).outcomes = s.outcomes := by
  unfold State.withFetchWord; split <;> rfl
@[simp] theorem State.withFetchWord_tsDraws (s : State) (nbits w : Nat) :
    (s.withFetchWord nbits w).tsDraws = s.tsDraws := by
  unfold State.withFetchWord; split <;> rfl
@[simp] theorem State.withFetchWord_fwRevision (s : State) (nbits w : Nat) :
    (s.withFetchWord nbits w).fwRevision = s.fwRevision := by
  unfold State.withFetchWord; split <;> rfl
theorem State.withFetchWord_pending {s : State} {nbits w : Nat} {m : HostMove}
    (h : moveOfTableWord nbits w = some m) : (s.withFetchWord nbits w).pending = m :: s.pending := by
  simp [State.withFetchWord, h]

end Sys2Proof.Machine

namespace Sys2Proof.Safety

open Sys2Proof.Machine

@[simp] theorem arch_connOpen (s : State) : (arch s).connOpen = s.connOpen := rfl
@[simp] theorem arch_buf (s : State) : (arch s).buf = s.buf := rfl

/-- Two states have the same `S` exactly when its two fields agree. -/
theorem arch_eq_iff (s t : State) : arch s = arch t ↔ s.connOpen = t.connOpen ∧ s.buf = t.buf := by
  simp [arch]

end Sys2Proof.Safety
end

