-- ==== Sys2Proof/Laws/Reassembler.lean ====
section
/-! SUPPORT. The reassembler: what one drain step and the drain loop can do, and the stream reading's own
recursion. -/

namespace Sys2Proof.Machine

/-! ### The stream reading -/

@[simp] theorem parseWithin_zero (bytes : List Byte) : parseWithin 0 bytes = ([], bytes) := rfl

theorem parseWithin_of_lt (n : Nat) {bytes : List Byte} (h : ¬Config.IN_LEN ≤ bytes.length) :
    parseWithin n bytes = ([], bytes) := by
  cases n with
  | zero => rfl
  | succ n => simp only [parseWithin, dif_neg h]

theorem parseWithin_ok (n : Nat) {bytes : List Byte} (h : Config.IN_LEN ≤ bytes.length)
    {v : BitVec Config.VALUE_W} (hd : tryDecode (window bytes h) = .ok v) :
    parseWithin (n + 1) bytes =
      (v :: (parseWithin n (bytes.drop Config.IN_LEN)).1, (parseWithin n (bytes.drop Config.IN_LEN)).2) := by
  simp only [parseWithin, dif_pos h, hd]

theorem parseWithin_error (n : Nat) {bytes : List Byte} (h : Config.IN_LEN ≤ bytes.length)
    {e : DecodeError} (hd : tryDecode (window bytes h) = .error e) :
    parseWithin (n + 1) bytes = parseWithin n (bytes.drop Config.DROP) := by
  simp only [parseWithin, dif_pos h, hd]

/-- A larger bound on the recursion gives the same answer: each call shortens the stream
(spec/42_resync.md R142). -/
theorem parseWithin_eq_of_le (n m : Nat) (bytes : List Byte) (hn : bytes.length - 3 ≤ n)
    (hm : bytes.length - 3 ≤ m) : parseWithin n bytes = parseWithin m bytes := by
  induction n generalizing m bytes with
  | zero =>
    have h : ¬Config.IN_LEN ≤ bytes.length := by simp only [Config.IN_LEN]; omega
    rw [parseWithin_of_lt 0 h, parseWithin_of_lt m h]
  | succ n ih =>
    by_cases h : Config.IN_LEN ≤ bytes.length
    · have h4 : 4 ≤ bytes.length := h
      obtain ⟨m, rfl⟩ : ∃ k, m = k + 1 := ⟨m - 1, by omega⟩
      cases hd : tryDecode (window bytes h) with
      | ok v =>
        rw [parseWithin_ok n h hd, parseWithin_ok m h hd,
          ih m (bytes.drop Config.IN_LEN) (by rw [List.length_drop]; simp only [Config.IN_LEN]; omega)
            (by rw [List.length_drop]; simp only [Config.IN_LEN]; omega)]
      | error e =>
        rw [parseWithin_error n h hd, parseWithin_error m h hd,
          ih m (bytes.drop Config.DROP) (by rw [List.length_drop]; simp only [Config.DROP]; omega)
            (by rw [List.length_drop]; simp only [Config.DROP]; omega)]
    · rw [parseWithin_of_lt _ h, parseWithin_of_lt _ h]

/-! ### The drain step and the drain loop -/

theorem drainStep_ok {s : State} (h : Config.IN_LEN ≤ s.buf.length) {v : BitVec Config.VALUE_W}
    (hd : tryDecode (window s.buf h) = .ok v) :
    drainStep s h = (some ⟨v, Config.drawTs s.tsDraws⟩,
      { s with buf := s.buf.drop Config.IN_LEN, tsDraws := s.tsDraws + 1 }) := by
  simp only [drainStep, State.bufTake, hd]
  rfl

theorem drainStep_error {s : State} (h : Config.IN_LEN ≤ s.buf.length) {e : DecodeError}
    (hd : tryDecode (window s.buf h) = .error e) :
    drainStep s h = (none, { s with buf := s.buf.drop Config.DROP }) := by
  simp only [drainStep, State.bufTake, hd]
  rfl

/-- Everything the drain loop does: the samples found so far get the stream's values with consecutive
draws behind them, the buffer becomes the stream's residual, and no other field changes. -/
theorem drain_eq (n : Nat) (s : State) (out : List Sample) :
    drain n s out = (out ++ stamped s.tsDraws (parseWithin n s.buf).1,
      { s with buf := (parseWithin n s.buf).2, tsDraws := s.tsDraws + (parseWithin n s.buf).1.length }) := by
  induction n generalizing s out with
  | zero => simp [drain, stamped]
  | succ n ih =>
    by_cases h : Config.IN_LEN ≤ s.buf.length
    · cases hd : tryDecode (window s.buf h) with
      | ok v =>
        simp only [drain, dif_pos h, drainStep_ok h hd, ih, parseWithin_ok n h hd, stamped,
          List.append_assoc, List.singleton_append, List.length_cons]
        congr 2
        omega
      | error e =>
        simp only [drain, dif_pos h, drainStep_error h hd, ih, parseWithin_error n h hd]
    · simp only [drain, dif_neg h, parseWithin_of_lt _ h, stamped, List.append_nil, List.length_nil,
        Nat.add_zero]

@[simp] theorem stamped_length (n : Nat) (values : List (BitVec Config.VALUE_W)) :
    (stamped n values).length = values.length := by
  induction values generalizing n with
  | nil => rfl
  | cons v values ih => simp [stamped, ih]

/-- The stamps do not touch the values. -/
@[simp] theorem stamped_map_value (n : Nat) (values : List (BitVec Config.VALUE_W)) :
    (stamped n values).map Sample.value = values := by
  induction values generalizing n with
  | nil => rfl
  | cons v values ih => simp [stamped, ih]

end Sys2Proof.Machine
end

