-- ==== Sys2Proof/Laws/Dispatch.lean ====
section
/-! SUPPORT. What each shared operation and each meaning answers, said once over the state's updates. -/

namespace Sys2Proof.Machine

/-- The revision gate lets the main line through (spec/00_scope.md R6). -/
theorem forRevision_mainLine (act : State → State) {s : State} (h : Safety.MainLine s) :
    forRevision act s = act s := by
  simp only [forRevision, h, Config.FwRevision.specified, if_true]

/-- Every other revision is refused OtherRevision, whatever the operation (spec/60_exceptions.md R209). -/
theorem forRevision_other (act : State → State) {s : State} (h : ¬Safety.MainLine s) :
    forRevision act s = s.refuse .otherRevision := by
  unfold forRevision
  cases hr : s.fwRevision with
  | mainLine => exact absurd hr h
  | other build => rfl

/-- Everything the revision gate can do. -/
theorem forRevision_cases (act : State → State) (s : State) :
    (Safety.MainLine s ∧ forRevision act s = act s) ∨
    (¬Safety.MainLine s ∧ forRevision act s = s.refuse .otherRevision) := by
  by_cases h : Safety.MainLine s
  · exact .inl ⟨h, forRevision_mainLine act h⟩
  · exact .inr ⟨h, forRevision_other act h⟩

/-- ENC in one move: the encoder's answer is handed over, and nothing else happens. -/
theorem encodeCommand_eq (opcode : BitVec Config.OPCODE_W) (payload : List Byte) (s : State) :
    (∃ f, encodeFrame opcode payload = .ok f ∧ encodeCommand opcode payload s = s.endWith (.frame f)) ∨
    (encodeFrame opcode payload = .error .invalidPayloadLength ∧
      encodeCommand opcode payload s = s.endWith (.encError .invalidPayloadLength)) := by
  unfold encodeCommand
  cases h : encodeFrame opcode payload with
  | ok f => exact .inl ⟨f, rfl, rfl⟩
  | error e => cases e; exact .inr ⟨rfl, rfl⟩

/-- The decoder called as a unit: everything it can do. -/
theorem decodeCandidate_cases (candidate : List Byte) (s : State) :
    (candidate.length ≠ Config.IN_LEN ∧ decodeCandidate candidate s = s.refuse .decoderWidth) ∨
    (∃ w v, candidateOf candidate = some w ∧ tryDecode w = .ok v ∧
      decodeCandidate candidate s = s.endWith (.decoded v)) ∨
    (∃ w e, candidateOf candidate = some w ∧ tryDecode w = .error e ∧
      decodeCandidate candidate s = s.endWith (.decodeError e)) := by
  by_cases hl : candidate.length = Config.IN_LEN
  · right
    have hc := candidateOf_of_length hl
    cases hd : tryDecode ⟨candidate.toArray, hl⟩ with
    | ok v => exact .inl ⟨_, v, hc, hd, by simp only [decodeCandidate, hc, hd]⟩
    | error e => exact .inr ⟨_, e, hc, hd, by simp only [decodeCandidate, hc, hd]⟩
  · exact .inl ⟨hl, by simp only [decodeCandidate, candidateOf_eq_none hl]⟩

/-- RXC while no connection is open. -/
theorem receive_closed (chunk : List Byte) {s : State} (h : s.connOpen = false) :
    receive chunk s = s.refuse .rxClosed := by
  simp [receive, h]

/-- RXC on an open connection: the loop on the filled buffer, and its samples handed over. -/
theorem receive_open (chunk : List Byte) {s : State} (h : s.connOpen = true) :
    receive chunk s =
      (drain (s.buf ++ chunk).length (s.bufAppend chunk) []).2.endWith
        (.samples (drain (s.buf ++ chunk).length (s.bufAppend chunk) []).1) := by
  simp [receive, h]

/-! ### The arms of `exec` -/

theorem exec_enc (opcode : BitVec Config.OPCODE_W) (payload : List Byte) {s : State}
    (h : Safety.MainLine s) : exec (.enc opcode payload) s = .next (encodeCommand opcode payload s) :=
  congrArg Host.Outcome.next (forRevision_mainLine _ h)

theorem exec_rxc (chunk : List Byte) {s : State} (h : Safety.MainLine s) :
    exec (.rxc chunk) s = .next (receive chunk s) :=
  congrArg Host.Outcome.next (forRevision_mainLine _ h)

/-- RXB is RXC with a one-byte chunk (spec/30_encoding.md R83), for every revision. -/
theorem exec_rxb (x : Byte) (s : State) : exec (.rxb x) s = exec (.rxc [x]) s := rfl

theorem exec_dec (candidate : List Byte) {s : State} (h : Safety.MainLine s) :
    exec (.dec candidate) s = .next (decodeCandidate candidate s) :=
  congrArg Host.Outcome.next (forRevision_mainLine _ h)

theorem exec_outboundFrame {bytes : List Byte} (hl : bytes.length = Config.OUT_LEN) {s : State}
    (h : Safety.MainLine s) :
    exec (.outboundFrame bytes) s = .next (s.endWith (.frameCheck (isOutboundFrame bytes))) := by
  simp only [exec, execOutboundFrame, forRevision_mainLine _ h, if_pos hl]

/-- A sequence of another length is refused for every revision. -/
theorem exec_outboundFrame_other {bytes : List Byte} (hl : bytes.length ≠ Config.OUT_LEN) (s : State) :
    exec (.outboundFrame bytes) s = .next (s.refuse .otherRevision) := by
  rcases forRevision_cases (fun s => if bytes.length = Config.OUT_LEN then
    s.endWith (.frameCheck (isOutboundFrame bytes)) else s.refuse .otherRevision) s with ⟨_, h⟩ | ⟨_, h⟩
  · exact congrArg Host.Outcome.next (h.trans (if_neg hl))
  · exact congrArg Host.Outcome.next h

/-! ### The step -/

/-- Everything a step that answers a next state can do. -/
theorem step_next_cases {s t : State} (h : step s = .next t) :
    (s.pending = [] ∧ t = s) ∨
    (∃ m rest, s.pending = m :: rest ∧ m.overlaps = true ∧ t = (s.afterMove rest).refuse .overlap) ∨
    (∃ m rest i, s.pending = m :: rest ∧ m.overlaps = false ∧ decodeMove m = .ok i ∧
      exec i (s.afterMove rest) = .next t) := by
  unfold step at h
  cases hp : s.pending with
  | nil =>
    simp only [hp] at h
    exact .inl ⟨rfl, (Host.Outcome.next.inj h).symm⟩
  | cons m rest =>
    simp only [hp] at h
    cases ho : m.overlaps with
    | true =>
      simp only [ho, if_true] at h
      exact .inr (.inl ⟨m, rest, rfl, ho, (Host.Outcome.next.inj h).symm⟩)
    | false =>
      simp only [ho, Bool.false_eq_true, if_false] at h
      cases hd : decodeMove m with
      | error why => simp only [hd] at h; cases h
      | ok i =>
        simp only [hd] at h
        exact .inr (.inr ⟨m, rest, i, rfl, ho, hd, h⟩)

end Sys2Proof.Machine

namespace Sys2Proof.Safety

open Sys2Proof.Machine

@[simp] theorem run_zero (s : State) : run 0 s = .next s := rfl

theorem run_succ_of_next {s t : State} (n : Nat) (h : step s = .next t) : run (n + 1) s = run n t := by
  simp only [run, h]

/-- The model's run is the host interface's. -/
theorem run_eq_core_run (n : Nat) (s : State) : run n s = Host.Core.run core n s := by
  induction n generalizing s with
  | zero => rfl
  | succ n ih =>
    cases h : step s with
    | next t =>
      have h' : core.step s = .next t := h
      simp only [run, Host.Core.run, h, h']
      exact ih t
    | fault r => exact nomatch r
    | refused r =>
      have h' : core.step s = .refused r := h
      simp only [run, Host.Core.run, h, h']
      rfl

end Sys2Proof.Safety
end

