-- ==== Sys2Proof/Laws/PerInstr.lean ====
section
/-! SUPPORT. Facts about every instruction as syntax, one lemma per constructor. -/

namespace Sys2Proof.Laws.MoveRoundTrip

/-- The move an instruction is encoded as decodes to what the instruction stands for
(spec/30_encoding.md R73, R83). -/
def Statement (i : Instr) : Prop := decodeMove (encode i) = .ok i.expand

theorem enc (opcode : BitVec Config.OPCODE_W) (payload : List Byte) : Statement (.enc opcode payload) := rfl
theorem rxc (chunk : List Byte) : Statement (.rxc chunk) := rfl
theorem openConn : Statement .openConn := rfl
theorem closeConn : Statement .closeConn := rfl
theorem reset : Statement .reset := rfl
theorem reserved000 : Statement .reserved000 := rfl
theorem reserved110 : Statement .reserved110 := rfl
theorem reserved111 : Statement .reserved111 := rfl
theorem rxb (x : Byte) : Statement (.rxb x) := rfl
theorem outboundFrame (bytes : List Byte) : Statement (.outboundFrame bytes) := rfl
theorem dec (candidate : List Byte) : Statement (.dec candidate) := rfl

end Sys2Proof.Laws.MoveRoundTrip
end

