-- ==== Sys2Proof/Laws/Safety.lean ====
section
/-! SUPPORT. The host's duties (spec/60_exceptions.md R215): everything a move that keeps them can be. -/

namespace Sys2Proof.Safety

open Sys2Proof.Machine

/-- A chunk that keeps RXC's duties is the next part of the open connection's stream. -/
theorem HostSide.deliver_some {h h' : HostSide} {chunk : List Byte} (hd : h.deliver chunk = some h') :
    ∃ (stream : List Byte) (later : List (List Byte)), h.phase = .connected ∧
      h.received = (chunk ++ stream) :: later ∧ h' = ⟨.connected, stream :: later⟩ := by
  unfold HostSide.deliver at hd
  split at hd
  · rename_i stream later hp hr
    split at hd
    · rename_i hpre
      obtain ⟨tail, rfl⟩ := List.isPrefixOf_iff_prefix.mp hpre
      exact ⟨tail, later, hp, hr, by cases hd; simp [hp]⟩
    · cases hd
  all_goals cases hd

/-- Everything an operation that keeps the duties can be, and what is left to do after it. -/
theorem HostSide.afterOperation_some {h h' : HostSide} {i : Instr} (ha : h.afterOperation i = some h') :
    (i = .reset ∧ h.phase = .powerOn ∧ h' = ⟨.idle, h.received⟩) ∨
    (∃ opcode payload, i = .enc opcode payload ∧ payload.length ≤ Config.MAX_PAYLOAD ∧ h' = h) ∨
    (i = .openConn ∧ h.phase = .idle ∧ h.received ≠ [] ∧ h' = ⟨.connected, h.received⟩) ∨
    (∃ chunk, i.expand = .rxc chunk ∧ h.deliver chunk = some h') ∨
    (i = .closeConn ∧ h.phase = .connected ∧ h.received = [] :: h'.received ∧ h'.phase = .idle) := by
  cases i with
  | reset =>
    simp only [HostSide.afterOperation] at ha
    split at ha
    · rename_i hp; exact .inl ⟨rfl, hp, (Option.some.inj ha).symm⟩
    · cases ha
  | enc opcode payload =>
    simp only [HostSide.afterOperation] at ha
    split at ha
    · rename_i hp; exact .inr (.inl ⟨_, _, rfl, hp, (Option.some.inj ha).symm⟩)
    · cases ha
  | openConn =>
    simp only [HostSide.afterOperation] at ha
    split at ha
    · rename_i hp; exact .inr (.inr (.inl ⟨rfl, hp.1, hp.2, (Option.some.inj ha).symm⟩))
    · cases ha
  | rxc chunk => exact .inr (.inr (.inr (.inl ⟨chunk, rfl, ha⟩)))
  | rxb x => exact .inr (.inr (.inr (.inl ⟨[x], rfl, ha⟩)))
  | closeConn =>
    simp only [HostSide.afterOperation] at ha
    split at ha
    · rename_i later hp hr; cases ha; exact .inr (.inr (.inr (.inr ⟨rfl, hp, hr, rfl⟩)))
    all_goals cases ha
  | reserved000 | reserved110 | reserved111 => cases ha
  | outboundFrame bytes => cases ha
  | dec candidate => cases ha

/-- A move that keeps the duties is an operation record that keeps them. -/
theorem HostSide.afterMove_some {h h' : HostSide} {m : HostMove} (ha : h.afterMove m = some h') :
    ∃ r i, m = .issue r ∧ decodeRecord r = .ok i ∧ h.afterOperation i = some h' := by
  cases m with
  | issue r =>
    cases hd : decodeRecord r with
    | ok i => simp only [HostSide.afterMove, hd] at ha; exact ⟨r, i, rfl, hd, ha⟩
    | error why => simp only [HostSide.afterMove, hd] at ha; cases ha
  | overlap r => cases ha
  | tryDecode candidate => cases ha
  | wireFrame bytes => cases ha

@[simp] theorem HostSide.keepsDuties_nil (h : HostSide) : h.keepsDuties [] = h.done := rfl

/-- Duties are kept through a sequence when the first move keeps them and the others do after it. -/
theorem HostSide.keepsDuties_cons (h : HostSide) (m : HostMove) (rest : List HostMove) :
    h.keepsDuties (m :: rest) = true ↔ ∃ h', h.afterMove m = some h' ∧ h'.keepsDuties rest = true := by
  simp only [HostSide.keepsDuties]
  cases h.afterMove m with
  | none => simp
  | some h' => simp

/-- After RESET the host's standing agrees with the connection. -/
theorem phaseOf_of_done {s : State} (h : OpOutcome.done ∈ s.outcomes) :
    phaseOf s = if s.connOpen then .connected else .idle := by
  simp only [phaseOf, if_neg (not_not.mpr h)]

end Sys2Proof.Safety
end

