-- ==== Sys2Proof/Machine/Text.lean ====
section
/-! DEFINITION. A printer in the textual syntax of spec/30_encoding.md R82. Hexadecimal digits are capitals,
as spec/95_test_vectors.md writes them. -/

namespace Sys2Proof.Machine

/-- One hexadecimal digit, of a number below 16. -/
def hexDigit (n : Nat) : Char :=
  if n < 10 then Char.ofNat (48 + n) else Char.ofNat (55 + n)

/-- `byte` of R82. -/
def hexByte (b : Byte) : String :=
  String.ofList [hexDigit (b.toNat / 16), hexDigit (b.toNat % 16)]

/-- `u16` of R82. -/
def hexU16 (o : BitVec Config.OPCODE_W) : String :=
  "0x" ++ String.ofList [hexDigit (o.toNat / 4096), hexDigit (o.toNat / 256 % 16),
    hexDigit (o.toNat / 16 % 16), hexDigit (o.toNat % 16)]

/-- The bytes of `bytelist` with one space between them (R82). -/
def hexBytes : List Byte → String
  | [] => ""
  | [b] => hexByte b
  | b :: bytes => hexByte b ++ " " ++ hexBytes bytes

/-- `bytelist` of R82. -/
def byteList (bytes : List Byte) : String :=
  "[" ++ hexBytes bytes ++ "]"

/-- The text of an operation (R82). The syntax has no text for a reserved code, a frame or a unit call. -/
def text : Instr → Option String
  | .enc opcode payload => some ("ENC " ++ hexU16 opcode ++ ", " ++ byteList payload)
  | .rxc chunk => some ("RXC " ++ byteList chunk)
  | .openConn => some "OPEN"
  | .closeConn => some "CLOSE"
  | .reset => some "RESET"
  | .reserved000 => none
  | .reserved110 => none
  | .reserved111 => none
  | .rxb x => some ("RXB " ++ hexByte x)
  | .outboundFrame _ => none
  | .dec _ => none

/-- `program` of R82: operations, each with a line break after it; none where one has no text. -/
def programText : List Instr → Option String
  | [] => some ""
  | i :: rest =>
    match text i, programText rest with
    | some line, some lines => some (line ++ "\n" ++ lines)
    | _, _ => none

end Sys2Proof.Machine
end

