-- ==== Sys2Proof/Tests/Slice0.lean ====
section
/-! SUPPORT. Tests. Every expected result is a line of spec/95_test_vectors.md, named in the comment above
the test, or is worked out by hand from the rule named there. After the tests, a witness for the hypotheses
of every obligation that has some. -/

namespace Sys2Proof.Tests

open Sys2Proof.Machine
open Sys2Proof.Safety

/-- An open connection with the given pending bytes. -/
def opened (buf : List Byte) : State := { State.reset with connOpen := true, buf := buf }

/-- The values an answer carries and the buffer it leaves. -/
def received (o : Host.Outcome State Fault Refusal) : Option (List (BitVec Config.VALUE_W) × List Byte) :=
  match o with
  | .next t => some (t.outcomes.flatMap valuesOf, t.buf)
  | .fault _ => none
  | .refused _ => none

/-- The outcomes an answer carries, its `S` and the run's mark. -/
def ended (o : Host.Outcome State Fault Refusal) : Option (List OpOutcome × ArchState × Bool) :=
  match o with
  | .next t => some (t.outcomes, arch t, t.refusalMark)
  | .fault _ => none
  | .refused _ => none

/-! ### Well-formedness -/

/-- R123: three and five bytes are no candidate. -/
theorem test_wf_dec_width : Instr.wf (.dec [0xFF, 0x12, 0x34]) = false ∧
    Instr.wf (.dec [0xFF, 0x12, 0x34, 0x45, 0]) = false ∧ Instr.wf (.dec [0xFF, 0x12, 0x34, 0x45]) = true := by
  decide

/-- R60: fifteen bytes are no outbound frame. -/
theorem test_wf_outbound_width : Instr.wf (.outboundFrame (List.replicate 15 0xFF)) = false ∧
    Instr.wf (.outboundFrame (List.replicate 16 0xFF)) = true := by
  decide

/-! ### Decoding: words written out from the spec's encodings -/

/-- P2 line 2: `op=001`, `opcode=0x0001`, `payload=10 20`. -/
theorem test_decode_enc : decodeMove (.issue ⟨0b001#3, .command 0x0001#16 [0x10, 0x20]⟩) =
    .ok (.enc 0x0001#16 [0x10, 0x20]) := by decide

/-- P1 line 3: `op=010`, `chunk=00 FF 12`. -/
theorem test_decode_rxc : decodeMove (.issue ⟨0b010#3, .chunk [0x00, 0xFF, 0x12]⟩) =
    .ok (.rxc [0x00, 0xFF, 0x12]) := by decide

/-- P1 line 6: `RXB FF` is `op=010`, `chunk=FF`. -/
theorem test_encode_rxb : encode (.rxb 0xFF) = .issue ⟨0b010#3, .chunk [0xFF]⟩ := by decide

/-- P1 line 2: `op=011`. -/
theorem test_decode_open : decodeMove (.issue ⟨0b011#3, .none⟩) = .ok .openConn := by decide

/-- P1 line 7: `op=100`. -/
theorem test_decode_close : decodeMove (.issue ⟨0b100#3, .none⟩) = .ok .closeConn := by decide

/-- P1 line 1: `op=101`. -/
theorem test_decode_reset : decodeMove (.issue ⟨0b101#3, .none⟩) = .ok .reset := by decide

/-- R73, R78: the reserved codes, whatever operands stand beside them. -/
theorem test_decode_reserved : decodeMove (.issue ⟨0b000#3, .none⟩) = .ok .reserved000 ∧
    decodeMove (.issue ⟨0b110#3, .chunk [1]⟩) = .ok .reserved110 ∧
    decodeMove (.issue ⟨0b111#3, .none⟩) = .ok .reserved111 := by decide

/-- R71 on T1: the candidate FF 12 34 45 as one 32-bit word, byte 0 most significant. -/
theorem test_decode_dec_word : decodeTableWord 32 0b11111111000100100011010001000101 =
    some (.dec [0xFF, 0x12, 0x34, 0x45]) := by decide

/-- R70 on E2: the frame as one 128-bit word, byte 0 most significant. -/
theorem test_decode_outbound_word : decodeTableWord 128 0xFF12340102030000000000000000004B =
    some (.outboundFrame [0xFF, 0x12, 0x34, 1, 2, 3, 0, 0, 0, 0, 0, 0, 0, 0, 0, 0x4B]) := by decide

/-- The table's record words, eight bits each. -/
theorem test_decode_record_words : decodeTableWord 8 1 = some (.enc 0 []) ∧
    decodeTableWord 8 2 = some (.rxc []) ∧ decodeTableWord 8 3 = some .openConn ∧
    decodeTableWord 8 4 = some .closeConn ∧ decodeTableWord 8 5 = some .reset ∧
    decodeTableWord 8 0 = some .reserved000 ∧ decodeTableWord 8 6 = some .reserved110 ∧
    decodeTableWord 8 7 = some .reserved111 ∧ decodeTableWord 24 7 = none := by decide

/-- R77: an OPEN with operands is no record, and is refused by name. -/
theorem test_decode_rejects_by_name :
    decodeRecord ⟨0b011#3, .chunk [1]⟩ = .error .openTakesNoOperands ∧
    decodeRecord ⟨0b001#3, .chunk [1]⟩ = .error .encTakesACommand ∧
    decodeRecord ⟨0b010#3, .none⟩ = .error .rxcTakesAChunk := by decide

/-! ### ENC and the outbound format -/

/-- E2. -/
theorem test_enc_e2 : ended (exec (.enc 0x1234#16 [0x01, 0x02, 0x03]) State.reset) =
    some ([.frame #v[0xFF, 0x12, 0x34, 1, 2, 3, 0, 0, 0, 0, 0, 0, 0, 0, 0, 0x4B]], ⟨false, []⟩, false) := by
  decide

/-- E10: thirteen bytes; S is as before, and the run is not marked. -/
theorem test_enc_e10 : ended (exec (.enc 0x0102#16 [0, 1, 2, 3, 4, 5, 6, 7, 8, 9, 10, 11, 12]) (opened [7])) =
    some ([.encError .invalidPayloadLength], ⟨true, [7]⟩, false) := by
  decide

/-- E4, E5, E6, E8, E12: wrapping checksums, the high opcode bit, the trailing zero. -/
theorem test_encodeFrame_vectors :
    encodeFrame 0xFFFF#16 (List.replicate 12 0xFF) =
      .ok #v[0xFF, 0xFF, 0xFF, 0xFF, 0xFF, 0xFF, 0xFF, 0xFF, 0xFF, 0xFF, 0xFF, 0xFF, 0xFF, 0xFF, 0xFF, 0xF1] ∧
    encodeFrame 0x0100#16 [] = .ok #v[0xFF, 1, 0, 0, 0, 0, 0, 0, 0, 0, 0, 0, 0, 0, 0, 0] ∧
    encodeFrame 0x0001#16 [0xFE] = .ok #v[0xFF, 0, 1, 0xFE, 0, 0, 0, 0, 0, 0, 0, 0, 0, 0, 0, 0xFE] ∧
    encodeFrame 0x8000#16 [0x7F, 0x80] = .ok #v[0xFF, 0x80, 0, 0x7F, 0x80, 0, 0, 0, 0, 0, 0, 0, 0, 0, 0, 0x7E] ∧
    encodeFrame 0x0001#16 [5] = encodeFrame 0x0001#16 [5, 0] := by
  decide

/-- R200: the status codes. -/
theorem test_status_codes : encStatus (encodeFrame 0#16 []) = 0 ∧
    encStatus (encodeFrame 0#16 (List.replicate 13 0)) = 1 ∧
    decoderStatus (tryDecode #v[0xFE, 0x12, 0x34, 0x45]) = 1 ∧
    decoderStatus (tryDecode #v[0xFF, 0x12, 0x34, 0x46]) = 2 ∧
    decoderStatus (tryDecode #v[0xFF, 0x12, 0x34, 0x45]) = 0 := by
  decide

/-- S1: E2's frame passes the check; with its last byte off by one it does not. -/
theorem test_outbound_check :
    ended (exec (.outboundFrame [0xFF, 0x12, 0x34, 1, 2, 3, 0, 0, 0, 0, 0, 0, 0, 0, 0, 0x4B]) State.reset) =
      some ([.frameCheck true], ⟨false, []⟩, false) ∧
    ended (exec (.outboundFrame [0xFF, 0x12, 0x34, 1, 2, 3, 0, 0, 0, 0, 0, 0, 0, 0, 0, 0x4C]) State.reset) =
      some ([.frameCheck false], ⟨false, []⟩, false) := by
  decide

/-- R6: a 5-byte shape is another revision's. -/
theorem test_outbound_other_shape :
    ended (exec (.outboundFrame [0xFF, 1, 2, 3, 4]) (opened [9])) =
      some ([.refused .otherRevision], ⟨true, [9]⟩, true) := by
  decide

/-! ### DEC -/

/-- T11: both checks fail, and the header is reported. -/
theorem test_dec_t11 : ended (exec (.dec [0x00, 0x12, 0x34, 0x46]) State.reset) =
    some ([.decodeError .badHeader], ⟨false, []⟩, false) := by decide

/-- T13: three bytes are refused, not classified. -/
theorem test_dec_t13 : ended (exec (.dec [0xFF, 0x12, 0x34]) State.reset) =
    some ([.refused .decoderWidth], ⟨false, []⟩, true) := by decide

/-- T1–T7 and T12, T8, T10. -/
theorem test_tryDecode_vectors :
    tryDecode #v[0xFF, 0x12, 0x34, 0x45] = .ok 0x1234#16 ∧ tryDecode #v[0xFF, 0, 0, 0xFF] = .ok 0#16 ∧
    tryDecode #v[0xFF, 0xFF, 0xFF, 0xFD] = .ok 0xFFFF#16 ∧ tryDecode #v[0xFF, 1, 0, 0] = .ok 0x0100#16 ∧
    tryDecode #v[0xFF, 0, 1, 0] = .ok 1#16 ∧ tryDecode #v[0xFF, 0xFF, 0, 0xFE] = .ok 0xFF00#16 ∧
    tryDecode #v[0xFF, 0x80, 0x80, 0xFF] = .ok 0x8080#16 ∧ tryDecode #v[0xFF, 0x13, 0x33, 0x45] = .ok 0x1333#16 ∧
    tryDecode #v[0xFE, 0x12, 0x34, 0x45] = .error .badHeader ∧
    tryDecode #v[0xFF, 0x12, 0x34, 0x46] = .error .badChecksum := by
  decide

/-! ### RXC and RXB -/

/-- X11: one corrupted byte loses two frames. -/
theorem test_rxc_x11 : received (exec (.rxc [0xFF, 0x01, 0x00, 0xFF, 0xFF, 0x14, 0x12, 0x25]) (opened [])) =
    some ([0xFF14#16], [0x25]) := by decide

/-- X6: a frame split over two chunks. -/
theorem test_rxc_x6 : received (exec (.rxc [0x34, 0x45]) (opened [0xFF, 0x12])) = some ([0x1234#16], []) := by
  decide

/-- X7, X8, X12, X15 as streams, the pending bytes before the chunk. -/
theorem test_parse_vectors :
    parse [0xFF, 0x12, 0x34, 0x45, 0xFF, 0xAB, 0xCD, 0x77] = ([0x1234#16, 0xABCD#16], []) ∧
    parse [0, 0, 0, 0, 0, 0, 0] = ([], [0, 0, 0]) ∧
    parse [0xFF, 0xFF, 1, 0xFF, 0xFF, 0xFF, 1, 0xFF, 0xFF] = ([0xFF01#16, 0xFF01#16], [0xFF]) ∧
    parse [0, 0, 0, 0xFF, 0x12, 0x34, 0x45] = ([0x1234#16], []) := by
  decide

/-- X11's drain steps. -/
theorem test_drain_steps_x11 : drainActions [0xFF, 0x01, 0x00, 0xFF, 0xFF, 0x14, 0x12, 0x25] =
    [.drop .badChecksum, .drop .badHeader, .drop .badHeader, .consume 0xFF14#16] := by decide

/-- L6: RXC while closed; P5: the run is marked and `S` is as before. -/
theorem test_rxc_l6 : ended (exec (.rxc [0xFF, 0x12, 0x34, 0x45]) State.reset) =
    some ([.refused .rxClosed], ⟨false, []⟩, true) := by decide

/-- The RXB trace of section 2.3: `34` drops one byte. -/
theorem test_rxb_drops : received (exec (.rxb 0x34) (opened [0x00, 0xFF, 0x12])) =
    some ([], [0xFF, 0x12, 0x34]) := by decide

/-- The RXB trace of section 2.3: `45` completes the frame. -/
theorem test_rxb_consumes : received (exec (.rxb 0x45) (opened [0xFF, 0x12, 0x34])) =
    some ([0x1234#16], []) := by decide

/-! ### OPEN, CLOSE, RESET and the reserved codes -/

/-- L3. -/
theorem test_open_l3 : ended (exec .openConn (opened [0xFF, 0x12, 0x34])) =
    some ([.done], ⟨true, []⟩, false) := by decide

/-- L4. -/
theorem test_close_l4 : ended (exec .closeConn (opened [0xFF, 0x12])) =
    some ([.done], ⟨false, []⟩, false) := by decide

/-- L1, and R209: RESET does not clear the run's mark. -/
theorem test_reset_l1 : ended (exec .reset { opened [0xFF, 0x12] with refusalMark := true }) =
    some ([.done], ⟨false, []⟩, true) := by decide

/-- P6 lines 4 and 5: the frame split across the re-open is not decoded. -/
theorem test_reopen_p6 :
    received (step { State.reset with connOpen := true, pending := [encode (.rxc [0x45])] }) = some ([], [0x45]) ∧
    ended (step { opened [0xFF, 0x12, 0x34] with pending := [encode .openConn] }) =
      some ([.done], ⟨true, []⟩, false) := by decide

/-- L7, for each reserved code. -/
theorem test_reserved_l7 :
    ended (exec .reserved000 (opened [1])) = some ([.refused .reservedOp], ⟨true, [1]⟩, true) ∧
    ended (exec .reserved110 (opened [1])) = some ([.refused .reservedOp], ⟨true, [1]⟩, true) ∧
    ended (exec .reserved111 (opened [1])) = some ([.refused .reservedOp], ⟨true, [1]⟩, true) := by decide

/-- R6: a block built for another revision refuses an instruction on frames. -/
theorem test_other_revision :
    ended (exec (.rxc [0xFF]) { opened [1] with fwRevision := .other 1 }) =
      some ([.refused .otherRevision], ⟨true, [1]⟩, true) ∧
    ended (exec (.enc 0 []) { opened [1] with fwRevision := .other 1 }) =
      some ([.refused .otherRevision], ⟨true, [1]⟩, true) := by decide

/-! ### The step and the printer -/

/-- P5 line 3: OPEN still applies to `S` after a refused record, and the mark stays. -/
theorem test_step_after_refusal :
    ended (step { State.reset with refusalMark := true, pending := [.issue ⟨0b011#3, .none⟩] }) =
      some ([.done], ⟨true, []⟩, true) := by decide

/-- R233: a record that overlaps another. -/
theorem test_step_overlap :
    ended (step { opened [1] with pending := [.overlap ⟨0b011#3, .none⟩] }) =
      some ([.refused .overlap], ⟨true, [1]⟩, true) := by decide

/-- The first instruction after reset, placed by its table word: OPEN. -/
theorem test_withFetchWord : ended (step (State.reset.withFetchWord 8 3)) =
    some ([.done], ⟨true, []⟩, false) := by decide

/-- P1 lines 1, 3 and 6 and P2 line 2. -/
theorem test_text : programText [.reset, .rxc [0x00, 0xFF, 0x12], .rxb 0xFF, .enc 0x0001#16 [0x10, 0x20]] =
    some "RESET\nRXC [00 FF 12]\nRXB FF\nENC 0x0001, [10 20]\n" := by decide

/-! ### Witnesses for the obligations' hypotheses -/

theorem witness_TableWordRoundTrip :
    (WellFormed (.dec [0xFF, 0x12, 0x34, 0x45]) ∧
      encodeTableWord (.dec [0xFF, 0x12, 0x34, 0x45]) = some (32, 0xFF123445)) ∧
    (WellFormed .reserved111 ∧ encodeTableWord .reserved111 = some (8, 7)) ∧
    WellFormed (.outboundFrame (List.replicate 16 0xFF)) ∧
    encodeTableWord (.outboundFrame (List.replicate 16 0xFF)) = some (128, 2 ^ 128 - 1) := by decide

theorem witness_EncodedMovesDecodeAndRun :
    ({ State.reset with pending := [encode (.rxb 0xFF), encode .reset] } : State).pending =
      encode (.rxb 0xFF) :: [encode .reset] := rfl

theorem witness_DecodedRecordIsTheOperationsOwn :
    decodeRecord ⟨0b100#3, .none⟩ = .ok .closeConn ∧ Instr.closeConn ≠ .reserved000 ∧
    Instr.closeConn ≠ .reserved110 ∧ Instr.closeConn ≠ .reserved111 := by decide

/-- The state after reset is one of the main line. Serves EncOutcomeIgnoresTheState and
OutboundFrameCheckDecidesTheFormat, and, beside the hypotheses on operands shown below it,
EncAnswersTheFrameFormat, EncRejectsLongPayload, EncResultPassesTheFormatCheck, DecoderWidthRefused and
DecClassifiesEveryCandidate. -/
theorem witness_main_line : MainLine State.reset := by decide

/-- Serves OutboundFrameWordHasItsFields, EncChecksumClosedForm and EncResultPassesTheFormatCheck. -/
theorem witness_encodeFrame_ok : MainLine State.reset ∧ encodeFrame 0x1234#16 [1, 2, 3] =
    .ok #v[0xFF, 0x12, 0x34, 1, 2, 3, 0, 0, 0, 0, 0, 0, 0, 0, 0, 0x4B] := by decide

/-- The least and the greatest accepted length, with an index in each clause. -/
theorem witness_EncAnswersTheFrameFormat :
    MainLine State.reset ∧ ([] : List Byte).length ≤ 12 ∧ (List.replicate 12 (0xFF : Byte)).length ≤ 12 ∧
    11 < (List.replicate 12 (0xFF : Byte)).length ∧ (([] : List Byte).length ≤ 0 ∧ 0 < 12) := by decide

theorem witness_EncRejectsLongPayload :
    MainLine State.reset ∧ 12 < (List.replicate 13 (0x00 : Byte)).length := by decide

theorem witness_EncInjectiveUpToTrailingZeros :
    ([0x05] : List Byte).length ≤ 12 ∧ (List.replicate 12 (0x05 : Byte)).length ≤ 12 := by decide

theorem witness_OtherOutboundShapeRefused :
    (List.replicate 15 (0xFF : Byte)).length ≠ 16 ∧ (List.replicate 17 (0xFF : Byte)).length ≠ 16 := by decide

/-- T11, T10 and T1, one for each clause. -/
theorem witness_DecClassifiesEveryCandidate :
    MainLine State.reset ∧
    (0x00#8 ≠ 0xFF#8) ∧ (0x46#8).toNat ≠ ((0xFF#8).toNat + (0x12#8).toNat + (0x34#8).toNat) % 256 ∧
    (0x45#8).toNat = ((0xFF#8).toNat + (0x12#8).toNat + (0x34#8).toNat) % 256 := by decide

theorem witness_DecoderWidthRefused :
    MainLine State.reset ∧
    ([0xFF, 0x12, 0x34] : List Byte).length ≠ 4 ∧ ([0xFF, 0x12, 0x34, 0x45, 0] : List Byte).length ≠ 4 ∧
    ([] : List Byte).length ≠ 4 := by decide

theorem witness_InboundChecksumClosedForm :
    (#v[0xFF, 0x12, 0x34, 0x45] : Vector Byte Config.IN_LEN)[0] = 0xFF#8 := by decide

/-- A change of byte 0 and one of byte 3. -/
theorem witness_SingleByteChangeDetected :
    tryDecode #v[0xFF, 0x12, 0x34, 0x45] = .ok 0x1234#16 ∧ 0xFE#8 ≠ 0xFF#8 ∧ 0x44#8 ≠ 0x45#8 := by decide

theorem witness_DecoderErrorsNeverSurface : ∃ s t : State,
    (∀ candidate, Instr.openConn ≠ .dec candidate) ∧ exec .openConn s = .next t ∧
      OpOutcome.decodeError .badHeader ∈ t.outcomes :=
  ⟨{ State.reset with outcomes := [.decodeError .badHeader] }, _, by simp, rfl, by decide⟩

/-- Serves RxcComputesParse, RxcNextState, ChunkingNeverChangesTheValues, ByteSerialMachineRefinesRxc,
RxbIsOneRxByte (3 bytes and 2 bytes before), RxcLeavesAShortSuffix, EmptyChunkChangesNothing and
RxcConservesBytes. -/
theorem witness_open_and_quiescent :
    (MainLine (opened [0xFF, 0x12, 0x34]) ∧ (opened [0xFF, 0x12, 0x34]).connOpen = true ∧
      Quiescent (opened [0xFF, 0x12, 0x34]) ∧
      (opened [0xFF, 0x12, 0x34]).buf.length = 3) ∧
    (MainLine (opened [0xFF, 0x12]) ∧ (opened [0xFF, 0x12]).connOpen = true ∧ Quiescent (opened [0xFF, 0x12]) ∧
      (opened [0xFF, 0x12]).buf.length ≤ 2) := by decide

/-- The register at its widest. -/
theorem witness_ByteSerialMachineRefinesRxc : ([0xFF, 0x12, 0x34] : List Byte).length ≤ 3 := by decide

theorem witness_DrainLoopTerminates : (opened [0, 0, 0, 0, 0]).buf.length - 3 ≤ 2 := by decide

theorem witness_RxcWhileClosedRefused : MainLine State.reset ∧ State.reset.connOpen = false := by decide

/-- One dropped byte before the frame FF 12 34 45, one byte after it. -/
theorem witness_RxcRecoversTheNextFrame :
    MainLine (opened []) ∧ (opened []).connOpen = true ∧
    (opened []).buf ++ [0x00, 0xFF, 0x12, 0x34, 0x45, 0xFF] =
      [0x00] ++ (#v[0xFF, 0x12, 0x34, 0x45] : Vector Byte Config.IN_LEN).toList ++ [0xFF] ∧
    tryDecode #v[0xFF, 0x12, 0x34, 0x45] = .ok 0x1234#16 ∧
    (∀ (q : Nat) (u : Vector Byte Config.IN_LEN), q < ([0x00] : List Byte).length →
      candidateOf ((((opened []).buf ++ [0x00, 0xFF, 0x12, 0x34, 0x45, 0xFF]).drop q).take 4) = some u →
        isInboundFrame u = false) := by
  refine ⟨by decide, by decide, by decide, by decide, ?_⟩
  intro q u hq hu
  obtain rfl : q = 0 := by simpa using hq
  have h : candidateOf ((((opened []).buf ++ [0x00, 0xFF, 0x12, 0x34, 0x45, 0xFF]).drop 0).take 4) =
      some #v[0x00, 0xFF, 0x12, 0x34] := by decide
  rw [h] at hu
  cases hu
  decide

theorem witness_RxcStaysAlignedOnValidFrames :
    MainLine (opened []) ∧ (opened []).connOpen = true ∧ (opened []).buf = [] ∧
    [#v[0xFF, 0x12, 0x34, 0x45], #v[0xFF, 0xAB, 0xCD, 0x77]].map tryDecode =
      [0x1234#16, 0xABCD#16].map Except.ok := by decide

theorem witness_HeaderlessRunCostsItself :
    MainLine (opened []) ∧ (opened []).connOpen = true ∧ (opened []).buf = [] ∧
    0xFF#8 ∉ ([0x00, 0x12, 0xFE] : List Byte) ∧
    tryDecode #v[0xFF, 0x12, 0x34, 0x45] = .ok 0x1234#16 := by decide

/-- S5 for the first clause, X13 for the second. -/
theorem witness_OneGarbageByteBeforeAFrame :
    MainLine (opened []) ∧ (opened []).connOpen = true ∧ (opened []).buf = [] ∧
    ((0x45#8).toNat = (0xFF + (0x12#8).toNat + (0x34#8).toNat) % 256 ∧
      ¬(0xFF#8 = 0xFF#8 ∧ 0x34#8 = 0x12#8 - 2)) ∧
    ((0x25#8).toNat = (0xFF + (0x14#8).toNat + (0x12#8).toNat) % 256 ∧
      (0xFF#8 = 0xFF#8 ∧ 0x12#8 = 0x14#8 - 2)) := by decide

theorem witness_FalseLocksAreReproduced :
    MainLine (opened []) ∧ (opened []).connOpen = true ∧ (opened []).buf = [] := by decide

/-- Serves LifecycleOperationsIdempotent and PendingBytesLostAtReopen, whose last clause it meets with an open
connection and pending bytes. -/
theorem witness_lifecycle : MainLine (opened [0xFF, 0x12, 0x34]) ∧
    (Instr.closeConn = .openConn ∨ Instr.closeConn = .closeConn ∨
    Instr.closeConn = .reset) := by decide

/-- A block built for another revision, with an instruction of the last clause and one of the first. -/
theorem witness_OtherRevisionRefused :
    ¬MainLine { opened [1] with fwRevision := .other 1 } ∧
    (∃ candidate, Instr.dec [0xFF, 0x12, 0x34, 0x45] = .dec candidate) ∧
    (∃ opcode payload, Instr.enc 0x0001#16 [] = .enc opcode payload) :=
  ⟨by decide, ⟨_, rfl⟩, ⟨_, _, rfl⟩⟩

/-- Serves ConnOpenWrittenByLifecycleOnly and OutcomesAreNeverRead. -/
theorem witness_exec_next : exec .openConn State.reset =
    .next { State.reset with connOpen := true, outcomes := [.done] } := rfl

theorem witness_RefusedInstructionChangesNoState : ∃ t : State,
    exec .reserved110 (opened [1]) = .next t ∧
      t.outcomes = (opened [1]).outcomes ++ [.refused .reservedOp] := ⟨_, rfl, rfl⟩

theorem witness_RefusalMarkIsNeverCleared : ∃ s t : State,
    step s = .next t ∧ s.refusalMark = true ∧ s.pending ≠ [] :=
  ⟨{ State.reset with refusalMark := true, pending := [encode .reset] }, _, rfl, by decide, by decide⟩

theorem witness_OverlappingRecordRefused :
    ({ opened [1] with pending := [.overlap ⟨0b010#3, .chunk [1]⟩] } : State).pending =
      .overlap ⟨0b010#3, .chunk [1]⟩ :: [] := rfl

theorem witness_StepRunsTheDecodedInstruction :
    ({ State.reset with pending := [encode .openConn] } : State).pending = encode .openConn :: [] ∧
    (encode .openConn).overlaps = false ∧ decodeMove (encode .openConn) = .ok .openConn := by decide

theorem witness_StepWithoutAnInstruction :
    State.reset.pending = [] ∧
    ({ State.reset with pending := [.issue ⟨0b011#3, .chunk [1]⟩] } : State).pending =
      .issue ⟨0b011#3, .chunk [1]⟩ :: [] ∧
    (HostMove.issue ⟨0b011#3, .chunk [1]⟩).overlaps = false ∧
    decodeMove (.issue ⟨0b011#3, .chunk [1]⟩) = .error .openTakesNoOperands := by decide

theorem witness_StatelessInstructionsLeaveTheState : ∃ t : State,
    exec (.enc 0x0001#16 [5]) (opened [1]) = .next t ∧ (∀ chunk, Instr.enc 0x0001#16 [5] ≠ .rxc chunk) ∧
    (∀ x, Instr.enc 0x0001#16 [5] ≠ .rxb x) ∧ Instr.enc 0x0001#16 [5] ≠ .openConn ∧
    Instr.enc 0x0001#16 [5] ≠ .closeConn ∧ Instr.enc 0x0001#16 [5] ≠ .reset :=
  ⟨_, rfl, by simp, by simp, by decide, by decide, by decide⟩

/-- An open connection with three pending bytes, an RXC to come, and a refusal behind it. -/
theorem witness_EveryStepKeepsTheInvariant : ∃ s t : State,
    BlockInv s ∧ s.pending = [encode (.rxc [0x45])] ∧ s.refusalMark = true ∧ step s = .next t :=
  ⟨{ opened [0xFF, 0x12, 0x34] with
      pending := [encode (.rxc [0x45])], refusalMark := true, outcomes := [.refused .rxClosed] },
    _, by decide, rfl, rfl, rfl⟩

/-- A step from a block built for another revision. -/
theorem witness_NoStepChangesTheRevision : ∃ t : State,
    step { State.reset with fwRevision := .other 1, pending := [encode .openConn] } = .next t ∧
      t.fwRevision ≠ State.reset.fwRevision := ⟨_, rfl, by decide⟩

/-- Program P1, with ENC before it and between: the moves of a host that keeps its duties. -/
def p1Moves : List HostMove :=
  [encode (.enc 0x0002#16 []), encode .reset, encode .openConn, encode (.rxc [0x00, 0xFF, 0x12]), encode (.rxc [0x34, 0x45, 0xFF, 0xAB]),
    encode (.enc 0x0001#16 (List.replicate 12 0xFF)), encode (.rxc [0xCD, 0x77]), encode (.rxb 0xFF),
    encode .closeConn]

/-- The bytes of P1's one connection. -/
def p1Stream : List Byte := [0x00, 0xFF, 0x12, 0x34, 0x45, 0xFF, 0xAB, 0xCD, 0x77, 0xFF]

/-- Serves DutifulHostIsNeverRefused and DutifulRunReturnsTheStreamsValues. -/
theorem witness_dutiful :
    Dutiful [p1Stream] { State.reset with pending := p1Moves } ∧
    HostSide.keepsDuties ⟨.powerOn, [p1Stream]⟩ p1Moves = true := by decide

/-- R215: each duty broken. No RESET at power-on, and a second RESET; OPEN while open; a byte lost, repeated or
out of order; RXC while closed; a payload of 13 bytes; an overlap. -/
theorem test_duties_broken :
    HostSide.keepsDuties ⟨.powerOn, [[]]⟩ [encode .openConn] = false ∧
    HostSide.keepsDuties ⟨.powerOn, []⟩ [encode .reset, encode .reset] = false ∧
    HostSide.keepsDuties ⟨.idle, [[]]⟩ [encode .openConn, encode .openConn] = false ∧
    HostSide.keepsDuties ⟨.connected, [[1, 2]]⟩ [encode (.rxc [2])] = false ∧
    HostSide.keepsDuties ⟨.connected, [[1, 2]]⟩ [encode (.rxc [1]), encode (.rxc [1, 2])] = false ∧
    HostSide.keepsDuties ⟨.connected, [[1, 2]]⟩ [encode (.rxc [2, 1])] = false ∧
    HostSide.keepsDuties ⟨.connected, [[1, 2]]⟩ [encode (.rxc [1]), encode .closeConn] = false ∧
    HostSide.keepsDuties ⟨.idle, [[1]]⟩ [encode (.rxc [1])] = false ∧
    HostSide.keepsDuties ⟨.powerOn, []⟩ [encode (.enc 0 [])] = false ∧
    HostSide.keepsDuties ⟨.idle, []⟩ [encode (.enc 0 (List.replicate 13 0))] = false ∧
    HostSide.keepsDuties ⟨.connected, [[1]]⟩ [.overlap ⟨0b010#3, .chunk [1]⟩] = false := by decide

theorem witness_RunAppliesEveryMove :
    ∀ m ∈ ({ State.reset with pending := [encode .openConn, encode (.rxc [0xFF])] } : State).pending,
      ∃ i, decodeMove m = .ok i := by
  intro m hm
  simp only [List.mem_cons, List.not_mem_nil, or_false] at hm
  rcases hm with rfl | rfl
  · exact ⟨_, rfl⟩
  · exact ⟨_, rfl⟩

end Sys2Proof.Tests
end

/-! PROOFS. The statements of spec/00_scope.md: the checksum as a wrapping fold, one rule for each end of a
step, and one rule for how a move ends, from which every instruction's end is assembled. -/

namespace Sys2Proof.Machine

/-! ### The checksum as a fold -/

/-- Wrapping additions from any start add the checksum to it (spec/00_scope.md R13). -/
theorem foldl_add_eq_add_sum8 (start : Byte) (bytes : List Byte) :
    bytes.foldl (· + ·) start = start + sum8 bytes := by
  induction bytes generalizing start with
  | nil => simp
  | cons b bytes ih => rw [List.foldl_cons, ih, sum8_cons, BitVec.add_assoc]

/-! ### The ends of a step -/

theorem step_of_pending_nil {s : State} (hp : s.pending = []) : step s = .next s := by
  simp only [step, hp]

theorem step_of_decodeMove_ok {s : State} {m : HostMove} {rest : List HostMove} {i : Instr}
    (hp : s.pending = m :: rest) (ho : m.overlaps = false) (hd : decodeMove m = .ok i) :
    step s = exec i (s.afterMove rest) := by
  simp only [step, hp, ho, hd, Bool.false_eq_true, if_false]

theorem step_of_decodeMove_error {s : State} {m : HostMove} {rest : List HostMove} {why : DecodeReject}
    (hp : s.pending = m :: rest) (ho : m.overlaps = false) (hd : decodeMove m = .error why) :
    step s = .refused (.malformedRecord why) := by
  simp only [step, hp, ho, hd, Bool.false_eq_true, if_false]

/-! ### How a move ends -/

/-- `t` comes from `s` by a move that ended with the outcome `o`: `o` alone is appended, the moves still to
come stay, and a refusal sets the run's mark (R14; spec/60_exceptions.md R209). -/
structure EndsWith (s t : State) (o : OpOutcome) : Prop where
  outcomes : t.outcomes = s.outcomes ++ [o]
  pending : t.pending = s.pending
  refusalMark : t.refusalMark = (s.refusalMark || o.isRefusal)

/-- `return v` and `raise E` of R14, also after changes to the other fields. -/
theorem EndsWith.endWith {s t : State} {o : OpOutcome} (houtcomes : t.outcomes = s.outcomes)
    (hpending : t.pending = s.pending) (hmark : t.refusalMark = s.refusalMark)
    (ho : o.isRefusal = false) : EndsWith s (t.endWith o) o where
  outcomes := by rw [State.endWith_outcomes, houtcomes]
  pending := hpending
  refusalMark := by rw [State.endWith_refusalMark, hmark, ho, Bool.or_false]

/-- `refuse R` of R14. -/
theorem EndsWith.refuse (r : RefusalReason) (s : State) : EndsWith s (s.refuse r) (.refused r) where
  outcomes := rfl
  pending := rfl
  refusalMark := (Bool.or_true _).symm

/-- The revision gate ends in one way where the operation behind it does. -/
theorem forRevision_endsWith {act : State → State} {s : State} (hact : ∃ o, EndsWith s (act s) o) :
    ∃ o, EndsWith s (forRevision act s) o := by
  rcases forRevision_cases act s with ⟨-, h⟩ | ⟨-, h⟩
  · rwa [h]
  · exact h ▸ ⟨_, .refuse .otherRevision s⟩

theorem encodeCommand_endsWith (opcode : BitVec Config.OPCODE_W) (payload : List Byte) (s : State) :
    ∃ o, EndsWith s (encodeCommand opcode payload s) o := by
  rcases encodeCommand_eq opcode payload s with ⟨f, -, h⟩ | ⟨-, h⟩
  · exact h ▸ ⟨_, .endWith rfl rfl rfl rfl⟩
  · exact h ▸ ⟨_, .endWith rfl rfl rfl rfl⟩

theorem decodeCandidate_endsWith (candidate : List Byte) (s : State) :
    ∃ o, EndsWith s (decodeCandidate candidate s) o := by
  rcases decodeCandidate_cases candidate s with ⟨-, h⟩ | ⟨w, v, -, -, h⟩ | ⟨w, e, -, -, h⟩
  · exact h ▸ ⟨_, .refuse .decoderWidth s⟩
  · exact h ▸ ⟨_, .endWith rfl rfl rfl rfl⟩
  · exact h ▸ ⟨_, .endWith rfl rfl rfl rfl⟩

/-- The drain loop writes the buffer and the draws alone, so an RXC that runs appends its samples and
nothing else. -/
theorem receive_endsWith (chunk : List Byte) (s : State) : ∃ o, EndsWith s (receive chunk s) o := by
  cases h : s.connOpen with
  | false => exact receive_closed chunk h ▸ ⟨_, .refuse .rxClosed s⟩
  | true =>
    rw [receive_open chunk h, drain_eq]
    exact ⟨_, .endWith rfl rfl rfl rfl⟩

theorem exec_outboundFrame_endsWith (bytes : List Byte) (s : State) :
    ∃ t o, exec (.outboundFrame bytes) s = .next t ∧ EndsWith s t o := by
  by_cases hl : bytes.length = Config.OUT_LEN
  · by_cases hm : Safety.MainLine s
    · exact ⟨_, _, exec_outboundFrame hl hm, .endWith rfl rfl rfl rfl⟩
    · exact ⟨_, _, congrArg Host.Outcome.next (forRevision_other _ hm), .refuse .otherRevision s⟩
  · exact ⟨_, _, exec_outboundFrame_other hl s, .refuse .otherRevision s⟩

/-- Every instruction answers a next state and ends in one way, refusals included. -/
theorem exec_endsWith (i : Instr) (s : State) : ∃ t o, exec i s = .next t ∧ EndsWith s t o := by
  cases i with
  | enc opcode payload =>
    exact ⟨_, (forRevision_endsWith (encodeCommand_endsWith opcode payload s)).imp fun _ h => ⟨rfl, h⟩⟩
  | rxc chunk =>
    exact ⟨_, (forRevision_endsWith (receive_endsWith chunk s)).imp fun _ h => ⟨rfl, h⟩⟩
  | rxb x =>
    exact ⟨_, (forRevision_endsWith (receive_endsWith [x] s)).imp fun _ h => ⟨rfl, h⟩⟩
  | dec candidate =>
    exact ⟨_, (forRevision_endsWith (decodeCandidate_endsWith candidate s)).imp fun _ h => ⟨rfl, h⟩⟩
  | outboundFrame bytes => exact exec_outboundFrame_endsWith bytes s
  | openConn | closeConn | reset => exact ⟨_, .done, rfl, .endWith rfl rfl rfl rfl⟩
  | reserved000 | reserved110 | reserved111 => exact ⟨_, _, rfl, .refuse .reservedOp s⟩

end Sys2Proof.Machine

namespace Sys2Proof.Proofs

open Sys2Proof.Machine

/-- Settles O5: the fold from 0, by induction on the bytes with any start. -/
theorem sum8WrapsAnywhere : Obligations.Sum8WrapsAnywhere := by
  intro bytes
  have hfold : sum8 bytes = bytes.foldl (· + ·) 0#8 := by
    rw [foldl_add_eq_add_sum8, BitVec.zero_add]
  exact ⟨sum8_toNat bytes, sum8_nil, hfold⟩

/-- Settles O50, by cases on the instruction: each one ends by `endWith` or by `refuse`. -/
theorem everyInstructionEndsInOneWay : Obligations.EveryInstructionEndsInOneWay := by
  intro i s
  obtain ⟨t, o, hexec, hend⟩ := exec_endsWith i s
  exact ⟨t, o, hexec, hend.outcomes, hend.pending, hend.refusalMark⟩

/-- Settles O13: both the revision gate and the length test refuse with the same reason. -/
theorem otherOutboundShapeRefused : Obligations.OtherOutboundShapeRefused :=
  fun _ s hl => exec_outboundFrame_other hl s

/-- Settles O48: the state with the move taken off is `afterMove`. -/
theorem stepRunsTheDecodedInstruction : Obligations.StepRunsTheDecodedInstruction :=
  fun _ _ _ _ hp ho hd => step_of_decodeMove_ok hp ho hd

/-- Settles O49: the two branches of `step` that run nothing. -/
theorem stepWithoutAnInstruction : Obligations.StepWithoutAnInstruction :=
  ⟨fun _ hp => step_of_pending_nil hp, fun _ _ _ _ hp ho hd => step_of_decodeMove_error hp ho hd⟩

/-- Settles O58: each of the five instructions on frames stands behind the revision gate. -/
theorem otherRevisionRefused : Obligations.OtherRevisionRefused := by
  intro i s hother hframe
  rcases hframe with ⟨_, _, rfl⟩ | ⟨_, rfl⟩ | ⟨_, rfl⟩ | ⟨_, rfl⟩ | ⟨_, rfl⟩
  all_goals exact congrArg Host.Outcome.next (forRevision_other _ hother)

end Sys2Proof.Proofs

/-! PROOFS. The statements of spec/10_state.md: the one effect that every instruction has on the state, what
an effect keeps, and the invariant that every step keeps. -/

namespace Sys2Proof.Machine

/-! ### The residual of a stream -/

/-- The residual of a stream is shorter than a window once the bound is enough (spec/42_resync.md R143). -/
theorem parseWithin_residual_length_lt (n : Nat) (bytes : List Byte) (hn : bytes.length - 3 ≤ n) :
    (parseWithin n bytes).2.length < Config.IN_LEN := by
  induction n generalizing bytes with
  | zero =>
    rw [parseWithin_zero]
    simp only [Config.IN_LEN]
    omega
  | succ n ih =>
    by_cases h : Config.IN_LEN ≤ bytes.length
    · cases hd : tryDecode (window bytes h) with
      | ok v =>
        rw [parseWithin_ok n h hd]
        exact ih _ (by rw [List.length_drop]; simp only [Config.IN_LEN]; omega)
      | error e =>
        rw [parseWithin_error n h hd]
        exact ih _ (by rw [List.length_drop]; simp only [Config.DROP]; omega)
    · rw [parseWithin_of_lt _ h]
      exact Nat.lt_of_not_le h

theorem parse_residual_length_lt (bytes : List Byte) : (parse bytes).2.length < Config.IN_LEN :=
  parseWithin_residual_length_lt bytes.length bytes (Nat.sub_le _ _)

/-! ### The effect of an instruction -/

/-- What an instruction can do to the state. -/
inductive Effect where
  /-- A result or an error that changes nothing else (spec/00_scope.md R14). -/
  | ends (o : OpOutcome) (notRefused : o.isRefusal = false)
  /-- A refusal (spec/60_exceptions.md R209). -/
  | refuses (r : RefusalReason)
  /-- A chunk received on an open connection (spec/42_resync.md R140). -/
  | receives (chunk : List Byte)
  /-- The connection opened or closed (spec/43_connection.md R170–R172). -/
  | connects (isOpen : Bool)

/-- The outcome an effect hands to the host. -/
def Effect.outcome (s : State) : Effect → OpOutcome
  | .ends o _ => o
  | .refuses r => .refused r
  | .receives chunk => .samples (stamped s.tsDraws (parse (s.buf ++ chunk)).1)
  | .connects _ => .done

/-- The state after an effect. -/
def Effect.apply (s : State) : Effect → State
  | .ends o _ => s.endWith o
  | .refuses r => s.refuse r
  | .receives chunk =>
    State.endWith (.samples (stamped s.tsDraws (parse (s.buf ++ chunk)).1))
      { s with buf := (parse (s.buf ++ chunk)).2
               tsDraws := s.tsDraws + (parse (s.buf ++ chunk)).1.length }
  | .connects isOpen => (s.setConnection isOpen).endWith .done

/-- The operations that write the connection flag (spec/10_state.md R24). -/
def isLifecycle : Instr → Bool
  | .openConn | .closeConn | .reset => true
  | .enc _ _ | .rxc _ | .rxb _ | .outboundFrame _ | .dec _ => false
  | .reserved000 | .reserved110 | .reserved111 => false

/-- RXC and RXB alone stand for a received chunk (spec/30_encoding.md R83). -/
theorem eq_rxc_or_rxb_of_expand {i : Instr} {chunk : List Byte} (h : i.expand = .rxc chunk) :
    i = .rxc chunk ∨ ∃ x, i = .rxb x := by
  cases i with
  | rxc bytes => exact .inl h
  | rxb x => exact .inr ⟨x, rfl⟩
  | _ => cases h

/-- Which effects an instruction can have from a state. -/
def Effect.Of (i : Instr) (s : State) : Effect → Prop
  | .ends _ _ | .refuses _ => isLifecycle i = false
  | .receives chunk => i.expand = .rxc chunk ∧ s.connOpen = true
  | .connects isOpen => if isOpen then i = .openConn else i = .closeConn ∨ i = .reset

/-- `act` has one effect on every state with the connection flag and the revision of `s`: no other field
chooses what the instruction does. -/
def HasEffect (i : Instr) (s : State) (act : State → State) : Prop :=
  ∃ e : Effect, e.Of i s ∧
    ∀ s' : State, s'.connOpen = s.connOpen → s'.fwRevision = s.fwRevision → act s' = e.apply s'

/-- An operation behind the revision gate has an effect where the operation itself has one. -/
theorem forRevision_hasEffect {i : Instr} {s : State} {act : State → State} (hi : isLifecycle i = false)
    (hact : HasEffect i s act) : HasEffect i s (forRevision act) := by
  by_cases hmain : Safety.MainLine s
  · obtain ⟨e, hof, he⟩ := hact
    exact ⟨e, hof, fun s' hopen hrev =>
      (forRevision_mainLine act (hrev.trans hmain)).trans (he s' hopen hrev)⟩
  · exact ⟨.refuses .otherRevision, hi, fun _ _ hrev =>
      forRevision_other act fun hmain' => hmain (hrev.symm.trans hmain')⟩

theorem encodeCommand_hasEffect (opcode : BitVec Config.OPCODE_W) (payload : List Byte) (s : State) :
    HasEffect (.enc opcode payload) s (encodeCommand opcode payload) := by
  cases h : encodeFrame opcode payload with
  | ok f => exact ⟨.ends (.frame f) rfl, rfl, fun _ _ _ => by simp only [encodeCommand, h]; rfl⟩
  | error e =>
    exact ⟨.ends (.encError e) rfl, rfl, fun _ _ _ => by simp only [encodeCommand, h]; rfl⟩

theorem decodeCandidate_hasEffect (candidate : List Byte) (s : State) :
    HasEffect (.dec candidate) s (decodeCandidate candidate) := by
  cases hc : candidateOf candidate with
  | none =>
    exact ⟨.refuses .decoderWidth, rfl, fun _ _ _ => by simp only [decodeCandidate, hc]; rfl⟩
  | some w =>
    cases hd : tryDecode w with
    | ok v =>
      exact ⟨.ends (.decoded v) rfl, rfl,
        fun _ _ _ => by simp only [decodeCandidate, hc, hd]; rfl⟩
    | error e =>
      exact ⟨.ends (.decodeError e) rfl, rfl,
        fun _ _ _ => by simp only [decodeCandidate, hc, hd]; rfl⟩

theorem outboundFrame_hasEffect (bytes : List Byte) (s : State) :
    HasEffect (.outboundFrame bytes) s (fun s => if bytes.length = Config.OUT_LEN then
      s.endWith (.frameCheck (isOutboundFrame bytes)) else s.refuse .otherRevision) := by
  by_cases hl : bytes.length = Config.OUT_LEN
  · exact ⟨.ends (.frameCheck (isOutboundFrame bytes)) rfl, rfl, fun _ _ _ => if_pos hl⟩
  · exact ⟨.refuses .otherRevision, rfl, fun _ _ _ => if_neg hl⟩

/-- RXC on an open connection, with the loop written as the stream reading (spec/42_resync.md R147). -/
theorem receive_eq_apply (chunk : List Byte) {s : State} (h : s.connOpen = true) :
    receive chunk s = (Effect.receives chunk).apply s := by
  rw [receive_open chunk h, drain_eq]
  rfl

/-- RXC, and RXB with it: the connection flag alone chooses between the loop and RxClosed. -/
theorem receive_hasEffect {i : Instr} {chunk : List Byte} (hi : isLifecycle i = false)
    (hexpand : i.expand = .rxc chunk) (s : State) : HasEffect i s (receive chunk) := by
  cases h : s.connOpen with
  | true => exact ⟨.receives chunk, ⟨hexpand, h⟩, fun _ hopen _ => receive_eq_apply chunk (hopen.trans h)⟩
  | false => exact ⟨.refuses .rxClosed, hi, fun _ hopen _ => receive_closed chunk (hopen.trans h)⟩

/-- Every instruction's meaning is one effect, chosen by the connection flag and the revision alone. -/
theorem exec_hasEffect (i : Instr) (s : State) :
    ∃ act : State → State, (∀ s', exec i s' = .next (act s')) ∧ HasEffect i s act := by
  cases i with
  | enc opcode payload =>
    exact ⟨_, fun _ => rfl, forRevision_hasEffect rfl (encodeCommand_hasEffect opcode payload s)⟩
  | rxc chunk => exact ⟨_, fun _ => rfl, forRevision_hasEffect rfl (receive_hasEffect rfl rfl s)⟩
  | rxb x => exact ⟨_, fun _ => rfl, forRevision_hasEffect rfl (receive_hasEffect rfl rfl s)⟩
  | outboundFrame bytes =>
    exact ⟨_, fun _ => rfl, forRevision_hasEffect rfl (outboundFrame_hasEffect bytes s)⟩
  | dec candidate =>
    exact ⟨_, fun _ => rfl, forRevision_hasEffect rfl (decodeCandidate_hasEffect candidate s)⟩
  | openConn => exact ⟨_, fun _ => rfl, .connects true, rfl, fun _ _ _ => rfl⟩
  | closeConn => exact ⟨_, fun _ => rfl, .connects false, .inl rfl, fun _ _ _ => rfl⟩
  | reset => exact ⟨_, fun _ => rfl, .connects false, .inr rfl, fun _ _ _ => rfl⟩
  | reserved000 | reserved110 | reserved111 =>
    exact ⟨_, fun _ => rfl, .refuses .reservedOp, rfl, fun _ _ _ => rfl⟩

/-- Everything an instruction that answers `t` can have done, there and on every state with the same
connection flag and revision. -/
theorem exec_next_cases {i : Instr} {s t : State} (h : exec i s = .next t) :
    ∃ e : Effect, e.Of i s ∧ t = e.apply s ∧
      ∀ s' : State, s'.connOpen = s.connOpen → s'.fwRevision = s.fwRevision →
        exec i s' = .next (e.apply s') := by
  obtain ⟨act, hexec, e, hof, he⟩ := exec_hasEffect i s
  have hall : ∀ s' : State, s'.connOpen = s.connOpen → s'.fwRevision = s.fwRevision →
      exec i s' = .next (e.apply s') := fun s' hopen hrev => (hexec s').trans (he s' hopen hrev ▸ rfl)
  exact ⟨e, hof, Host.Outcome.next.inj (h.symm.trans (hall s rfl rfl)), hall⟩

/-! ### What an effect writes and keeps -/

@[simp] theorem Effect.apply_fwRevision (e : Effect) (s : State) : (e.apply s).fwRevision = s.fwRevision := by
  cases e <;> rfl

/-- Every effect ends its move in one way (spec/00_scope.md R14). -/
theorem Effect.apply_endsWith (e : Effect) (s : State) : EndsWith s (e.apply s) (e.outcome s) := by
  cases e with
  | ends o ho => exact .endWith rfl rfl rfl ho
  | refuses r => exact .refuse r s
  | receives chunk => exact .endWith rfl rfl rfl rfl
  | connects isOpen => exact .endWith rfl rfl rfl rfl

/-- With other earlier outcomes and another mark an effect does the same to every other field. -/
theorem Effect.apply_ignores_run (e : Effect) (s : State) (earlier : List OpOutcome) (mark : Bool) :
    e.apply { s with outcomes := earlier, refusalMark := mark } =
      { e.apply s with
        outcomes := earlier ++ [e.outcome s], refusalMark := mark || (e.outcome s).isRefusal } := by
  cases e with
  | ends o ho => simp only [Effect.apply, Effect.outcome, State.endWith, ho, Bool.or_false]
  | refuses r => simp only [Effect.apply, Effect.outcome, State.refuse, OpOutcome.isRefusal, Bool.or_true]
  | receives chunk =>
    simp only [Effect.apply, Effect.outcome, State.endWith, OpOutcome.isRefusal, Bool.or_false]
  | connects isOpen =>
    simp only [Effect.apply, Effect.outcome, State.endWith, State.setConnection, OpOutcome.isRefusal,
      Bool.or_false]

/-- The flag after an instruction's effect (spec/10_state.md R24). -/
theorem Effect.Of.apply_connOpen {e : Effect} {i : Instr} {s : State} (h : e.Of i s) :
    (e.apply s).connOpen =
      if i = .openConn then true else if i = .closeConn ∨ i = .reset then false else s.connOpen := by
  have hkept (hi : isLifecycle i = false) :
      s.connOpen =
        if i = .openConn then true else if i = .closeConn ∨ i = .reset then false else s.connOpen := by
    rw [if_neg (by rintro rfl; cases hi), if_neg (by rintro (rfl | rfl) <;> cases hi)]
  cases e with
  | ends o ho => exact hkept h
  | refuses r => exact hkept h
  | receives chunk =>
    rcases eq_rxc_or_rxb_of_expand h.1 with rfl | ⟨x, rfl⟩ <;> exact hkept rfl
  | connects isOpen =>
    cases isOpen with
    | true => obtain rfl : i = .openConn := h; rfl
    | false => rcases h with rfl | rfl <;> rfl

end Sys2Proof.Machine

namespace Sys2Proof.Safety

open Sys2Proof.Machine

/-! ### The invariant -/

/-- A move that ends in one way keeps the mark true to the refusals (spec/60_exceptions.md R209). -/
theorem markTellsRefusals_of_endsWith {s t : State} {o : OpOutcome} (hend : EndsWith s t o)
    (hmark : MarkTellsRefusals s) : MarkTellsRefusals t := by
  unfold MarkTellsRefusals
  rw [hend.refusalMark, hend.outcomes, hmark, List.any_append, List.any_cons, List.any_nil, Bool.or_false]

/-- An instruction's effect keeps the two invariants of `S` (spec/10_state.md R22, R23): a received chunk leaves
a residual, and only on an open connection. -/
theorem quiescent_and_closedIsEmpty_apply {e : Effect} {i : Instr} {s : State} (hof : e.Of i s)
    (hquiet : Quiescent s) (hclosed : ClosedIsEmpty s) :
    Quiescent (e.apply s) ∧ ClosedIsEmpty (e.apply s) := by
  cases e with
  | ends o ho => exact ⟨hquiet, hclosed⟩
  | refuses r => exact ⟨hquiet, hclosed⟩
  | receives chunk =>
    have hopen : ((Effect.receives chunk).apply s).connOpen = true := hof.2
    exact ⟨parse_residual_length_lt (s.buf ++ chunk), fun h => absurd (hopen.symm.trans h) (by decide)⟩
  | connects isOpen => exact ⟨by simp [Effect.apply], fun _ => rfl⟩

/-- Every instruction keeps the invariant. -/
theorem exec_keeps_blockInv {i : Instr} {s t : State} (hinv : BlockInv s) (h : exec i s = .next t) :
    BlockInv t := by
  obtain ⟨hquiet, hclosed, hmark⟩ := hinv
  obtain ⟨e, hof, rfl, -⟩ := exec_next_cases h
  obtain ⟨hquiet', hclosed'⟩ := quiescent_and_closedIsEmpty_apply hof hquiet hclosed
  exact ⟨hquiet', hclosed', markTellsRefusals_of_endsWith (e.apply_endsWith s) hmark⟩

/-- A refusal changes no field of `S` (spec/60_exceptions.md R209), so it keeps the invariant. -/
theorem refuse_keeps_blockInv (r : RefusalReason) {s : State} (hinv : BlockInv s) : BlockInv (s.refuse r) := by
  obtain ⟨hquiet, hclosed, hmark⟩ := hinv
  exact ⟨hquiet, hclosed, markTellsRefusals_of_endsWith (.refuse r s) hmark⟩

/-- The invariant does not speak of the moves still to come. -/
theorem afterMove_keeps_blockInv (rest : List HostMove) {s : State} (hinv : BlockInv s) :
    BlockInv (s.afterMove rest) := hinv

end Sys2Proof.Safety

namespace Sys2Proof.Proofs

open Sys2Proof.Machine
open Sys2Proof.Safety

/-- Settles O53, by cases on what the step does: nothing, a refusal, or an instruction. -/
theorem everyStepKeepsTheInvariant : Obligations.EveryStepKeepsTheInvariant := by
  intro s t hinv h
  rcases step_next_cases h with ⟨-, rfl⟩ | ⟨m, rest, -, -, rfl⟩ | ⟨m, rest, i, -, -, -, hexec⟩
  · exact hinv
  · exact refuse_keeps_blockInv .overlap (afterMove_keeps_blockInv rest hinv)
  · exact exec_keeps_blockInv (afterMove_keeps_blockInv rest hinv) hexec

/-- Settles O42: the flag after each effect that the instruction can have. -/
theorem connOpenWrittenByLifecycleOnly : Obligations.ConnOpenWrittenByLifecycleOnly := by
  intro i s t h
  obtain ⟨e, hof, rfl, -⟩ := exec_next_cases h
  exact hof.apply_connOpen

/-- Settles O51: an instruction that neither receives nor connects only ends or refuses. -/
theorem statelessInstructionsLeaveTheState : Obligations.StatelessInstructionsLeaveTheState := by
  intro i s t h hrxc hrxb hopen hclose hreset
  obtain ⟨e, hof, rfl, -⟩ := exec_next_cases h
  cases e with
  | ends o ho => exact ⟨rfl, rfl, rfl⟩
  | refuses r => exact ⟨rfl, rfl, rfl⟩
  | receives chunk =>
    rcases eq_rxc_or_rxb_of_expand hof.1 with hi | ⟨x, hi⟩
    · exact absurd hi (hrxc chunk)
    · exact absurd hi (hrxb x)
  | connects isOpen =>
    cases isOpen with
    | true => exact absurd hof hopen
    | false => exact absurd hof (not_or.mpr ⟨hclose, hreset⟩)

/-- Settles O52: the effect is chosen by the connection flag and the revision, and it reads neither the
earlier outcomes nor the mark. -/
theorem outcomesAreNeverRead : Obligations.OutcomesAreNeverRead := by
  intro i s t earlier mark h
  obtain ⟨e, -, rfl, hall⟩ := exec_next_cases h
  refine ⟨e.outcome s, (e.apply_endsWith s).outcomes, ?_⟩
  rw [hall { s with outcomes := earlier, refusalMark := mark } rfl rfl, Effect.apply_ignores_run]

/-- Settles O59, by cases on what the step does: no effect writes the parameter. -/
theorem noStepChangesTheRevision : Obligations.NoStepChangesTheRevision := by
  intro s t h
  rcases step_next_cases h with ⟨-, rfl⟩ | ⟨m, rest, -, -, rfl⟩ | ⟨m, rest, i, -, -, -, hexec⟩
  · rfl
  · rw [State.refuse_fwRevision, State.afterMove_fwRevision]
  · obtain ⟨e, -, rfl, -⟩ := exec_next_cases hexec
    rw [Effect.apply_fwRevision, State.afterMove_fwRevision]

/-- Settles O47: both fields as R31 states them. -/
theorem resetStateIsTheSpecs : Obligations.ResetStateIsTheSpecs := ⟨rfl, rfl⟩

/-- Settles O54: an empty buffer, and a run without outcomes that carries no mark. -/
theorem invariantHoldsAtReset : Obligations.InvariantHoldsAtReset := ⟨by decide, fun _ => rfl, rfl⟩

end Sys2Proof.Proofs

/-! PROOFS. The statement of spec/20_memory.md: what OPEN, CLOSE and RESET write does not depend on the state. -/

namespace Sys2Proof.Machine

/-- OPEN, CLOSE and RESET each give every state the same new connection (spec/43_connection.md R170–R172). -/
theorem exec_lifecycle {i : Instr} (hi : i = .openConn ∨ i = .closeConn ∨ i = .reset) :
    ∃ isOpen : Bool, ∀ s : State, exec i s = .next ((Effect.connects isOpen).apply s) := by
  rcases hi with rfl | rfl | rfl
  · exact ⟨true, fun _ => rfl⟩
  · exact ⟨false, fun _ => rfl⟩
  · exact ⟨false, fun _ => rfl⟩

end Sys2Proof.Machine

namespace Sys2Proof.Safety

open Sys2Proof.Machine

/-- A connection opened or closed overwrites both fields of `S`, whatever they held. -/
@[simp] theorem arch_apply_connects (isOpen : Bool) (s : State) :
    arch ((Effect.connects isOpen).apply s) = ⟨isOpen, []⟩ := rfl

end Sys2Proof.Safety

namespace Sys2Proof.Proofs

open Sys2Proof.Machine
open Sys2Proof.Safety

/-- Settles O40: both issues write the same constant to `S`. -/
theorem lifecycleOperationsIdempotent : Obligations.LifecycleOperationsIdempotent := by
  intro i s hi
  obtain ⟨isOpen, hexec⟩ := exec_lifecycle hi
  refine ⟨_, _, hexec s, hexec _, ?_⟩
  rw [arch_apply_connects, arch_apply_connects]

end Sys2Proof.Proofs

/-! PROOFS. The statements of spec/30_encoding.md: the op-select map and its table words, the fields of a
packed frame, the bytes of an ENC frame with their checksum, and the classes of inbound candidates. -/

namespace Sys2Proof

/-! ### Moves and records -/

/-- Every instruction's move decodes to what the instruction stands for (spec/30_encoding.md R73, R83). -/
theorem decodeMove_encode (i : Instr) : decodeMove (encode i) = .ok i.expand := by
  cases i with
  | enc opcode payload => exact Laws.MoveRoundTrip.enc opcode payload
  | rxc chunk => exact Laws.MoveRoundTrip.rxc chunk
  | openConn => exact Laws.MoveRoundTrip.openConn
  | closeConn => exact Laws.MoveRoundTrip.closeConn
  | reset => exact Laws.MoveRoundTrip.reset
  | reserved000 => exact Laws.MoveRoundTrip.reserved000
  | reserved110 => exact Laws.MoveRoundTrip.reserved110
  | reserved111 => exact Laws.MoveRoundTrip.reserved111
  | rxb x => exact Laws.MoveRoundTrip.rxb x
  | outboundFrame bytes => exact Laws.MoveRoundTrip.outboundFrame bytes
  | dec candidate => exact Laws.MoveRoundTrip.dec candidate

/-- Everything a record that decodes can be: its operation's own record, or one with a reserved code. -/
theorem decodeRecord_ok_cases {r : OpRecord} {i : Instr} (h : decodeRecord r = .ok i) :
    encode i = .issue r ∨ i = .reserved000 ∨ i = .reserved110 ∨ i = .reserved111 := by
  obtain ⟨op, operands⟩ := r
  unfold decodeRecord at h
  dsimp only at h
  split_ifs at h
  -- each of the five operations' codes takes one form of operands and rejects the others
  iterate 5
    · subst op
      cases operands <;> cases h
      exact .inl rfl
  · cases h; exact .inr (.inl rfl)
  · cases h; exact .inr (.inr (.inl rfl))
  · cases h; exact .inr (.inr (.inr rfl))

/-! ### Table words -/

/-- An op-select code's word is read with all three of its bits (R73). -/
theorem moveOfTableWord_recordBits (op : BitVec 3) :
    moveOfTableWord recordBits op.toNat = some (.issue ⟨op, zeroOperands op⟩) := by
  simp only [moveOfTableWord, if_true, BitVec.ofNat_toNat, BitVec.setWidth_eq]

/-- A candidate's word is read with all of its bytes (R71). -/
theorem moveOfTableWord_inboundBits {bytes : List Byte} (h : bytes.length = Config.IN_LEN) :
    moveOfTableWord inboundBits (wordOfBytes bytes) = some (.tryDecode bytes) := by
  have hbytes : bytesOfWord Config.IN_LEN (wordOfBytes bytes) = bytes := h ▸ bytesOfWord_wordOfBytes bytes
  exact congrArg (some ∘ HostMove.tryDecode) hbytes

/-- An outbound frame's word is read with all of its bytes (R70). -/
theorem moveOfTableWord_outboundBits {bytes : List Byte} (h : bytes.length = Config.OUT_LEN) :
    moveOfTableWord outboundBits (wordOfBytes bytes) = some (.wireFrame bytes) := by
  have hbytes : bytesOfWord Config.OUT_LEN (wordOfBytes bytes) = bytes := h ▸ bytesOfWord_wordOfBytes bytes
  exact congrArg (some ∘ HostMove.wireFrame) hbytes

/-- The table word of a well-formed instruction is its move, and the instruction stands for itself. -/
theorem moveOfTableWord_of_encodeTableWord {i : Instr} {nbits w : Nat} (hwf : WellFormed i)
    (h : encodeTableWord i = some (nbits, w)) :
    moveOfTableWord nbits w = some (encode i) ∧ i.expand = i := by
  cases i with
  | enc opcode payload =>
    by_cases hzero : opcode = 0 ∧ payload = []
    · obtain ⟨rfl, rfl⟩ := hzero
      cases h
      exact ⟨moveOfTableWord_recordBits OpSelect.enc, rfl⟩
    · rw [encodeTableWord, if_neg hzero] at h
      cases h
  | rxc chunk =>
    by_cases hzero : chunk = []
    · subst hzero
      cases h
      exact ⟨moveOfTableWord_recordBits OpSelect.rxc, rfl⟩
    · rw [encodeTableWord, if_neg hzero] at h
      cases h
  | openConn => cases h; exact ⟨moveOfTableWord_recordBits OpSelect.openConn, rfl⟩
  | closeConn => cases h; exact ⟨moveOfTableWord_recordBits OpSelect.closeConn, rfl⟩
  | reset => cases h; exact ⟨moveOfTableWord_recordBits OpSelect.reset, rfl⟩
  | reserved000 => cases h; exact ⟨moveOfTableWord_recordBits OpSelect.reserved000, rfl⟩
  | reserved110 => cases h; exact ⟨moveOfTableWord_recordBits OpSelect.reserved110, rfl⟩
  | reserved111 => cases h; exact ⟨moveOfTableWord_recordBits OpSelect.reserved111, rfl⟩
  | rxb x => cases h
  | outboundFrame bytes => cases h; exact ⟨moveOfTableWord_outboundBits (beq_iff_eq.mp hwf), rfl⟩
  | dec candidate => cases h; exact ⟨moveOfTableWord_inboundBits (beq_iff_eq.mp hwf), rfl⟩

theorem decodeTableWord_of_moveOfTableWord {nbits w : Nat} {m : HostMove}
    (h : moveOfTableWord nbits w = some m) : decodeTableWord nbits w = (decodeMove m).toOption := by
  simp only [decodeTableWord, h]

/-! ### The fields of a packed sequence -/

theorem wordOfBytes_append (xs ys : List Byte) :
    wordOfBytes (xs ++ ys) = wordOfBytes xs * 2 ^ (8 * ys.length) + wordOfBytes ys := by
  induction xs with
  | nil => simp [wordOfBytes]
  | cons x xs ih =>
    rw [List.cons_append, wordOfBytes_cons, wordOfBytes_cons, ih, List.length_append, Nat.mul_add, Nat.pow_add]
    ring

/-- A run of bytes is the word's bits above the bytes behind it (R69). -/
theorem wordOfBytes_field (before field behind : List Byte) :
    wordOfBytes (before ++ field ++ behind) >>> (8 * behind.length) % 2 ^ (8 * field.length) =
      wordOfBytes field := by
  rw [wordOfBytes_append, wordOfBytes_append, Nat.shiftRight_eq_div_pow, Nat.add_comm,
    Nat.add_mul_div_right _ _ (by positivity), Nat.div_eq_of_lt (wordOfBytes_lt behind), Nat.zero_add,
    Nat.mul_add_mod', Nat.mod_eq_of_lt (wordOfBytes_lt field)]

/-- Byte `i` of a sequence is the 8 bits above the bytes behind it (R69). -/
theorem wordOfBytes_getElem {bytes : List Byte} {i : Nat} {b : Byte} (h : bytes[i]? = some b) :
    wordOfBytes bytes >>> (8 * (bytes.length - (i + 1))) % 2 ^ 8 = b.toNat := by
  obtain ⟨hi, rfl⟩ := List.getElem?_eq_some_iff.mp h
  have hsplit : bytes.take i ++ [bytes[i]] ++ bytes.drop (i + 1) = bytes := by
    rw [List.take_append_getElem hi, List.take_append_drop]
  have hfield := wordOfBytes_field (bytes.take i) [bytes[i]] (bytes.drop (i + 1))
  have hbyte : wordOfBytes [bytes[i]] = bytes[i].toNat := by simp [wordOfBytes]
  rwa [hsplit, hbyte, List.length_drop] at hfield

/-- The first byte's bits are all set in the word: the fixed bits of R70's pattern. -/
theorem wordOfBytes_cons_and (b : Byte) (bytes : List Byte) :
    wordOfBytes (b :: bytes) &&& b.toNat <<< (8 * bytes.length) = b.toNat <<< (8 * bytes.length) := by
  apply Nat.eq_of_testBit_eq
  intro k
  rw [wordOfBytes, Nat.testBit_and, Nat.testBit_or, Bool.and_comm]
  cases (b.toNat <<< (8 * bytes.length)).testBit k <;> rfl

end Sys2Proof

namespace Sys2Proof.Machine

/-! ### The bytes of an ENC frame -/

/-- Byte `i` of the padded payload: the payload's own, then zeros (R62). -/
theorem padPayload_getElem? (payload : List Byte) {i : Nat} (hi : i < Config.MAX_PAYLOAD) :
    (padPayload payload)[i]? = some (payload.getD i 0#8) := by
  by_cases h : i < payload.length
  · rw [padPayload, List.getElem?_append_left h, List.getD_eq_getElem _ _ h, List.getElem?_eq_getElem h]
  · have hle : payload.length ≤ i := Nat.le_of_not_lt h
    rw [padPayload, List.getElem?_append_right hle, List.getD_eq_default _ _ hle,
      List.getElem?_replicate_of_lt (by omega)]
    rfl

/-- Padding adds nothing to the body's sum (R85). -/
theorem encodeBody_sum (opcode : BitVec Config.OPCODE_W) (payload : List Byte) :
    ((encodeBody opcode payload).map BitVec.toNat).sum =
      0xFF + (opcodeHi opcode).toNat + (opcodeLo opcode).toNat + (payload.map BitVec.toNat).sum := by
  simp [encodeBody, padPayload, Nat.add_assoc]

/-- The opcode's two bytes, packed high byte first, are the opcode (R67). -/
theorem wordOfBytes_opcode (opcode : BitVec Config.OPCODE_W) :
    wordOfBytes [opcodeHi opcode, opcodeLo opcode] = opcode.toNat := by
  have h := congrArg BitVec.toNat (opcodeHi_append_opcodeLo opcode)
  rw [BitVec.toNat_append] at h
  rw [← h]
  simp [wordOfBytes]

section Frame

variable {opcode : BitVec Config.OPCODE_W} {payload : List Byte} {f : Vector Byte Config.OUT_LEN}

theorem getElem_of_toList_getElem? {i : Nat} {b : Byte} (hi : i < Config.OUT_LEN) (h : f.toList[i]? = some b) :
    f[i] = b := by
  rw [← Vector.getElem_toList]
  exact (List.getElem?_eq_some_iff.mp h).2

/-- A frame's bytes, field by field (R60). -/
theorem encodeFrame_toList (h : encodeFrame opcode payload = .ok f) :
    f.toList = [Config.HDR] ++ [opcodeHi opcode, opcodeLo opcode] ++
      (padPayload payload ++ [sum8 (encodeBody opcode payload)]) :=
  (encodeFrame_ok h).2

theorem encodeFrame_take_body (h : encodeFrame opcode payload = .ok f) :
    f.toList.take Config.OUT_BODY = encodeBody opcode payload := by
  obtain ⟨hlen, hbytes⟩ := encodeFrame_ok h
  rw [hbytes, List.take_left' (encodeBody_length opcode payload hlen)]

theorem encodeFrame_header (h : encodeFrame opcode payload = .ok f) :
    f[0] = Config.HDR ∧ f[1] = opcodeHi opcode ∧ f[2] = opcodeLo opcode := by
  have hbytes := encodeFrame_toList h
  exact ⟨getElem_of_toList_getElem? (by decide) (by rw [hbytes]; rfl),
    getElem_of_toList_getElem? (by decide) (by rw [hbytes]; rfl),
    getElem_of_toList_getElem? (by decide) (by rw [hbytes]; rfl)⟩

theorem encodeFrame_payload (h : encodeFrame opcode payload = .ok f) {i : Nat} (hi : i < Config.MAX_PAYLOAD) :
    f.toList[3 + i]? = some (payload.getD i 0#8) := by
  have hpad := padPayload_length payload (encodeFrame_ok h).1
  rw [encodeFrame_toList h, List.getElem?_append_right (by simp), ← padPayload_getElem? payload hi,
    List.getElem?_append_left (by simp [hpad]; omega)]
  simp

/-- The last byte is the checksum of the bytes before it (R61). -/
theorem encodeFrame_checksum (h : encodeFrame opcode payload = .ok f) :
    f[15] = sum8 (f.toList.take Config.OUT_BODY) := by
  obtain ⟨hlen, hbytes⟩ := encodeFrame_ok h
  have hlast : f.toList[Config.OUT_BODY]? = some (sum8 (encodeBody opcode payload)) := by
    rw [hbytes, ← encodeBody_length opcode payload hlen, List.getElem?_concat_length]
  rw [encodeFrame_take_body h]
  exact getElem_of_toList_getElem? (by decide) hlast

end Frame

/-! ### The outbound format check -/

/-- The check holds exactly on the header of R60 and the checksum of R61. -/
theorem isOutboundFrame_toList_iff (f : Vector Byte Config.OUT_LEN) :
    isOutboundFrame f.toList = true ↔
      f[0] = Config.HDR ∧ f[15] = sum8 (f.toList.take Config.OUT_BODY) := by
  have hfirst : f.toList.take 1 = [f[0]] := by
    simp [List.take_add_one]
  have hlast : f.toList.drop Config.OUT_BODY = [f[15]] := by
    rw [List.drop_eq_getElem_cons (by simp), List.drop_eq_nil_of_le (by simp), Vector.getElem_toList]
  simp [isOutboundFrame, hfirst, hlast]

/-! ### The classes of inbound candidates (R72) -/

theorem exists_tryDecode_ok_iff (w : Vector Byte Config.IN_LEN) :
    (∃ v, tryDecode w = .ok v) ↔ w[0] = Config.HDR ∧ w[3] = sum8 [w[0], w[1], w[2]] := by
  simp only [tryDecode_ok_iff, exists_and_left, exists_eq, and_true, isInboundFrame, Bool.and_eq_true,
    beq_iff_eq]

theorem tryDecode_badHeader_iff (w : Vector Byte Config.IN_LEN) :
    tryDecode w = .error .badHeader ↔ w[0] ≠ Config.HDR := by
  rcases tryDecode_cases w with ⟨h0, h⟩ | ⟨h0, -, h⟩ | ⟨h0, -, h⟩
  · exact ⟨fun _ => h0, fun _ => h⟩
  · simp only [h, h0, Except.error.injEq, reduceCtorEq, ne_eq, not_true]
  · simp only [h, h0, reduceCtorEq, ne_eq, not_true]

theorem tryDecode_badChecksum_iff (w : Vector Byte Config.IN_LEN) :
    tryDecode w = .error .badChecksum ↔ w[0] = Config.HDR ∧ w[3] ≠ sum8 [w[0], w[1], w[2]] := by
  rcases tryDecode_cases w with ⟨h0, h⟩ | ⟨h0, h3, h⟩ | ⟨h0, h3, h⟩
  · simp only [h, h0, Except.error.injEq, reduceCtorEq, false_and]
  · exact ⟨fun _ => ⟨h0, h3⟩, fun _ => h⟩
  · simp only [h, reduceCtorEq, false_iff]; exact fun hne => hne.2 h3

/-- The checksum byte that passes behind the header and two value bytes (R64). -/
def passingChecksum (hi lo : Byte) : Byte := sum8 [Config.HDR, hi, lo]

theorem valid_iff_checksum (b : Byte × Byte × Byte × Byte) :
    (∃ v, tryDecode #v[b.1, b.2.1, b.2.2.1, b.2.2.2] = .ok v) ↔
      b.1 = Config.HDR ∧ b.2.2.2 = passingChecksum b.2.1 b.2.2.1 := by
  obtain ⟨b₀, hi, lo, cs⟩ := b
  refine (exists_tryDecode_ok_iff _).trans (and_congr_right fun h0 => ?_)
  obtain rfl : b₀ = Config.HDR := h0
  rfl

theorem badChecksum_iff_checksum (b : Byte × Byte × Byte × Byte) :
    tryDecode #v[b.1, b.2.1, b.2.2.1, b.2.2.2] = .error .badChecksum ↔
      b.1 = Config.HDR ∧ b.2.2.2 ≠ passingChecksum b.2.1 b.2.2.1 := by
  obtain ⟨b₀, hi, lo, cs⟩ := b
  refine (tryDecode_badChecksum_iff _).trans (and_congr_right fun h0 => ?_)
  obtain rfl : b₀ = Config.HDR := h0
  rfl

/-! ### Counting the classes -/

theorem card_byte : Nat.card Byte = 2 ^ 8 := Nat.card_eq_of_equiv_fin (FinEnum.equiv)

theorem card_subtype_not {α : Type} [Finite α] (p : α → Prop) :
    Nat.card { a // ¬p a } = Nat.card α - Nat.card { a // p a } := by
  classical
  rw [← Nat.card_congr (Equiv.sumCompl p), Nat.card_sum, Nat.add_sub_cancel_left]

/-- The header byte chosen, the other three bytes alone are counted. -/
theorem card_behind_header (q : Byte × Byte × Byte → Prop) :
    Nat.card { b : Byte × Byte × Byte × Byte // b.1 = Config.HDR ∧ q b.2 } = Nat.card { c // q c } := by
  rw [Nat.card_congr (Equiv.subtypeProdEquivProd (p := (· = Config.HDR)) (q := q)), Nat.card_prod,
    Nat.card_unique, Nat.one_mul]

theorem card_without_header :
    Nat.card { b : Byte × Byte × Byte × Byte // ¬b.1 = Config.HDR } = 2 ^ 32 - 2 ^ 24 := by
  rw [Nat.card_congr (Equiv.prodSubtypeFstEquivSubtypeProd (p := fun b => ¬b = Config.HDR)), Nat.card_prod,
    card_subtype_not, Nat.card_unique (α := { b : Byte // b = Config.HDR }), Nat.card_prod, Nat.card_prod,
    card_byte]
  norm_num

/-- For each two value bytes exactly one checksum byte passes (R72). -/
def checksumGraphEquiv (checksum : Byte → Byte → Byte) :
    { c : Byte × Byte × Byte // c.2.2 = checksum c.1 c.2.1 } ≃ Byte × Byte where
  toFun c := (c.1.1, c.1.2.1)
  invFun v := ⟨(v.1, v.2, checksum v.1 v.2), rfl⟩
  left_inv := by rintro ⟨⟨hi, lo, cs⟩, h⟩; exact Subtype.ext (congrArg (hi, lo, ·) h.symm)
  right_inv _ := rfl

theorem card_checksumGraph (checksum : Byte → Byte → Byte) :
    Nat.card { c : Byte × Byte × Byte // c.2.2 = checksum c.1 c.2.1 } = 2 ^ 16 := by
  rw [Nat.card_congr (checksumGraphEquiv checksum), Nat.card_prod, card_byte, ← Nat.pow_add]

/-! ### Dispatch -/

/-- A pseudo-operation has the meaning of what it stands for (R83). -/
theorem exec_expand (i : Instr) (s : State) : exec i.expand s = exec i s := by
  cases i with
  | rxb x => exact (exec_rxb x s).symm
  | _ => rfl

end Sys2Proof.Machine

namespace Sys2Proof.Proofs

open Sys2Proof.Machine
open Sys2Proof.Safety

/-- Settles O2: the table word is the instruction's move, and the move decodes to the instruction. -/
theorem tableWordRoundTrip : Obligations.TableWordRoundTrip := by
  intro i nbits w hwf h
  obtain ⟨hmove, hself⟩ := moveOfTableWord_of_encodeTableWord hwf h
  rw [decodeTableWord_of_moveOfTableWord hmove, decodeMove_encode, hself]
  rfl

/-- Settles O3, by cases on what a record that decodes can be. -/
theorem decodedRecordIsTheOperationsOwn : Obligations.DecodedRecordIsTheOperationsOwn := by
  intro r i h h000 h110 h111
  rcases decodeRecord_ok_cases h with hown | hi | hi | hi
  · exact hown
  · exact absurd hi h000
  · exact absurd hi h110
  · exact absurd hi h111

/-- Settles O4: each field is a run of the frame's bytes, and a run of bytes is a field of the word. -/
theorem outboundFrameWordHasItsFields : Obligations.OutboundFrameWordHasItsFields := by
  intro opcode payload f h
  have hbytes := encodeFrame_toList h
  have hpad := padPayload_length payload (encodeFrame_ok h).1
  have hlen : f.toList.length = 16 := f.length_toList
  refine ⟨?_, ?_, fun i hi => ?_, ?_⟩
  · have hfixed := wordOfBytes_cons_and Config.HDR
      ([opcodeHi opcode, opcodeLo opcode] ++ (padPayload payload ++ [sum8 (encodeBody opcode payload)]))
    rw [List.length_append, List.length_append, hpad] at hfixed
    rw [hbytes]
    exact hfixed
  · have hopcode := wordOfBytes_field [Config.HDR] [opcodeHi opcode, opcodeLo opcode]
      (padPayload payload ++ [sum8 (encodeBody opcode payload)])
    rw [← hbytes, List.length_append, hpad, wordOfBytes_opcode] at hopcode
    exact hopcode
  · have hbyte := wordOfBytes_getElem (encodeFrame_payload h hi)
    rwa [hlen, show 8 * (16 - (3 + i + 1)) = 96 - 8 * i by omega] at hbyte
  · have hlast : f.toList[15]? = some f[15] := by simp
    have hbyte := wordOfBytes_getElem hlast
    rwa [hlen, encodeFrame_checksum h] at hbyte

/-- Settles O6: the frame's bytes, header, payload and checksum. -/
theorem encAnswersTheFrameFormat : Obligations.EncAnswersTheFrameFormat := by
  intro opcode payload s hmain hlen
  obtain ⟨f, hf, -⟩ := encodeFrame_of_le opcode payload hlen
  have hexec : exec (.enc opcode payload) s = .next (s.endWith (.frame f)) := by
    rw [exec_enc opcode payload hmain, encodeCommand, hf]
  obtain ⟨h0, h1, h2⟩ := encodeFrame_header hf
  refine ⟨f, hexec, h0, h1.trans (opcodeHi_eq opcode), h2.trans (opcodeLo_eq opcode), fun i hi => ?_,
    fun i hle hi => ?_, encodeFrame_checksum hf⟩
  · rw [encodeFrame_payload hf (hi.trans_le hlen), List.getD_eq_getElem _ _ hi, List.getElem?_eq_getElem hi]
  · rw [encodeFrame_payload hf hi, List.getD_eq_default _ _ hle]

/-- Settles O9: the checksum of the body, whose padding adds nothing; 0xFF is one less than 256. -/
theorem encChecksumClosedForm : Obligations.EncChecksumClosedForm := by
  intro opcode payload f h
  have hsum : f[15].toNat = (0xFF + (opcode.extractLsb' 8 8).toNat + (opcode.extractLsb' 0 8).toNat +
      (payload.map BitVec.toNat).sum) % 256 := by
    rw [encodeFrame_checksum h, encodeFrame_take_body h, sum8_toNat, encodeBody_sum, opcodeHi_eq, opcodeLo_eq]
  exact ⟨hsum, by omega⟩

/-- Settles O12: 16 bytes pass the length test, and the check decides the two constraints. -/
theorem outboundFrameCheckDecidesTheFormat : Obligations.OutboundFrameCheckDecidesTheFormat :=
  fun f _ hmain => ⟨isOutboundFrame f.toList, exec_outboundFrame f.length_toList hmain,
    isOutboundFrame_toList_iff f⟩

/-- Settles O17: the classes are those of `tryDecode_cases`; the header leaves three bytes, of which the first
two fix the one checksum byte that passes. -/
theorem inboundClassesPartitionAndCount : Obligations.InboundClassesPartitionAndCount := by
  refine ⟨fun w => ?_, ?_, ?_, ?_⟩
  · exact ⟨tryDecode_badHeader_iff w, tryDecode_badChecksum_iff w, exists_tryDecode_ok_iff w⟩
  · exact (Nat.card_congr (Equiv.subtypeEquivRight valid_iff_checksum)).trans
      ((card_behind_header _).trans (card_checksumGraph _))
  · rw [Nat.card_congr (Equiv.subtypeEquivRight badChecksum_iff_checksum),
      card_behind_header (fun c => ¬c.2.2 = passingChecksum c.1 c.2.1), card_subtype_not, card_checksumGraph,
      Nat.card_prod, Nat.card_prod, card_byte]
    norm_num
  · rw [Nat.card_congr (Equiv.subtypeEquivRight fun b => tryDecode_badHeader_iff _)]
    exact card_without_header

/-- Settles O18: the checksum of the three bytes before it, whose first is 0xFF. -/
theorem inboundChecksumClosedForm : Obligations.InboundChecksumClosedForm := by
  intro w h0
  have hok : (∃ v, tryDecode w = .ok v) ↔ w[3].toNat = (w[1].toNat + w[2].toNat + 0xFF) % 256 := by
    have hsum : (sum8 [w[0], w[1], w[2]]).toNat = (w[1].toNat + w[2].toNat + 0xFF) % 256 := by
      rw [sum8_toNat, h0]
      simp [Nat.add_comm]
    rw [exists_tryDecode_ok_iff, ← BitVec.toNat_inj, ← BitVec.toNat_inj (x := w[3]), hsum]
    exact and_iff_right (congrArg BitVec.toNat h0)
  exact ⟨hok, hok.trans (by omega)⟩

/-- Settles O1: the op-select map evaluated on the spec's records. -/
theorem opSelectMapReadsSpecRecords : Obligations.OpSelectMapReadsSpecRecords := by
  unfold Obligations.OpSelectMapReadsSpecRecords
  decide

/-- Settles O43: each reserved code's meaning is the refusal. -/
theorem reservedCodesRefused : Obligations.ReservedCodesRefused := fun _ => ⟨rfl, rfl, rfl⟩

/-- Settles O57: the move decodes to what the instruction stands for, which has the instruction's meaning. -/
theorem encodedMovesDecodeAndRun : Obligations.EncodedMovesDecodeAndRun := by
  refine ⟨decodeMove_encode, fun _ _ => rfl, fun i rest s hp => ?_⟩
  rw [step_of_decodeMove_ok hp (encode_overlaps i) (decodeMove_encode i), exec_expand]
  rfl

end Sys2Proof.Proofs

/-! PROOFS. The statements of spec/40_encoder.md: ENC's two answers, the format check that its frames pass,
and what of the operands a frame tells. -/

namespace Sys2Proof.Machine

/-! ### ENC's two answers -/

/-- An accepted ENC hands its frame over and changes nothing else (R100). -/
theorem exec_enc_of_ok {opcode : BitVec Config.OPCODE_W} {payload : List Byte} {f : Vector Byte Config.OUT_LEN}
    (hf : encodeFrame opcode payload = .ok f) {s : State} (hmain : Safety.MainLine s) :
    exec (.enc opcode payload) s = .next (s.endWith (.frame f)) := by
  rw [exec_enc opcode payload hmain, encodeCommand, hf]

/-- A rejected ENC hands its error over and changes nothing else (R103). -/
theorem exec_enc_of_error {opcode : BitVec Config.OPCODE_W} {payload : List Byte} {e : EncError}
    (he : encodeFrame opcode payload = .error e) {s : State} (hmain : Safety.MainLine s) :
    exec (.enc opcode payload) s = .next (s.endWith (.encError e)) := by
  rw [exec_enc opcode payload hmain, encodeCommand, he]

/-- What ENC returns keeps the header and checksum constraints of the format (R102). -/
theorem isOutboundFrame_of_encodeFrame {opcode : BitVec Config.OPCODE_W} {payload : List Byte}
    {f : Vector Byte Config.OUT_LEN} (hf : encodeFrame opcode payload = .ok f) :
    isOutboundFrame f.toList = true :=
  (isOutboundFrame_toList_iff f).mpr ⟨(encodeFrame_header hf).1, encodeFrame_checksum hf⟩

/-! ### What a frame tells of its operands -/

section Injectivity

variable {o₁ o₂ : BitVec Config.OPCODE_W} {p₁ p₂ : List Byte}

theorem opcode_eq_of_bytes_eq (hhi : opcodeHi o₁ = opcodeHi o₂) (hlo : opcodeLo o₁ = opcodeLo o₂) : o₁ = o₂ := by
  rw [← opcodeHi_append_opcodeLo o₁, hhi, hlo, opcodeHi_append_opcodeLo]

/-- The bytes before the checksum tell the opcode and the padded payload, and nothing more (R105). -/
theorem encodeBody_eq_iff :
    encodeBody o₁ p₁ = encodeBody o₂ p₂ ↔ o₁ = o₂ ∧ padPayload p₁ = padPayload p₂ := by
  constructor
  · intro h
    obtain ⟨hhi, hlo, hpad⟩ : opcodeHi o₁ = opcodeHi o₂ ∧ opcodeLo o₁ = opcodeLo o₂ ∧
        padPayload p₁ = padPayload p₂ := by
      simpa [encodeBody] using h
    exact ⟨opcode_eq_of_bytes_eq hhi hlo, hpad⟩
  · rintro ⟨rfl, hpad⟩
    rw [encodeBody, encodeBody, hpad]

/-- Two accepted commands give one frame exactly when the bytes before the checksum agree. -/
theorem encodeFrame_eq_iff_encodeBody_eq (h₁ : p₁.length ≤ Config.MAX_PAYLOAD)
    (h₂ : p₂.length ≤ Config.MAX_PAYLOAD) :
    encodeFrame o₁ p₁ = encodeFrame o₂ p₂ ↔ encodeBody o₁ p₁ = encodeBody o₂ p₂ := by
  obtain ⟨f₁, hf₁, hbytes₁⟩ := encodeFrame_of_le o₁ p₁ h₁
  obtain ⟨f₂, hf₂, hbytes₂⟩ := encodeFrame_of_le o₂ p₂ h₂
  constructor
  · intro h
    obtain rfl : f₁ = f₂ := Except.ok.inj (hf₁.symm.trans (h.trans hf₂))
    rw [← encodeFrame_take_body hf₁, encodeFrame_take_body hf₂]
  · intro hbody
    have hf : f₁ = f₂ := Vector.toList_inj.mp (by rw [hbytes₁, hbytes₂, hbody])
    rw [hf₁, hf₂, hf]

/-- ENC is injective on accepted operands up to the zeros of the padding (R105). -/
theorem encodeFrame_eq_iff (h₁ : p₁.length ≤ Config.MAX_PAYLOAD) (h₂ : p₂.length ≤ Config.MAX_PAYLOAD) :
    encodeFrame o₁ p₁ = encodeFrame o₂ p₂ ↔ o₁ = o₂ ∧ padPayload p₁ = padPayload p₂ :=
  (encodeFrame_eq_iff_encodeBody_eq h₁ h₂).trans encodeBody_eq_iff

end Injectivity

end Sys2Proof.Machine

namespace Sys2Proof.Proofs

open Sys2Proof.Machine

/-- Settles O10: a frame's body is its opcode's bytes and its padded payload; `[05]` and `[05 00]` are padded
to the same 12 bytes. -/
theorem encInjectiveUpToTrailingZeros : Obligations.EncInjectiveUpToTrailingZeros :=
  ⟨fun _ _ _ _ h₁ h₂ => encodeFrame_eq_iff h₁ h₂,
    (encodeFrame_eq_iff (by decide) (by decide)).mpr ⟨rfl, rfl⟩⟩

/-- Settles O11: a frame has 16 bytes, and ENC's frames pass the check. -/
theorem encResultPassesTheFormatCheck : Obligations.EncResultPassesTheFormatCheck := by
  intro opcode payload f s hmain hf
  rw [exec_outboundFrame f.length_toList hmain, isOutboundFrame_of_encodeFrame hf]
  rfl

/-- Settles O7: the payload's length is ENC's one test, and it fails. -/
theorem encRejectsLongPayload : Obligations.EncRejectsLongPayload :=
  fun opcode payload _ hmain hlong =>
    exec_enc_of_error (encodeFrame_of_gt opcode payload (Nat.not_le_of_gt hlong)) hmain

/-- Settles O8, by cases on the encoder's answer, which its operands alone decide. -/
theorem encOutcomeIgnoresTheState : Obligations.EncOutcomeIgnoresTheState := by
  intro opcode payload
  cases henc : encodeFrame opcode payload with
  | ok f => exact ⟨.frame f, fun _ hmain => exec_enc_of_ok henc hmain⟩
  | error e => exact ⟨.encError e, fun _ hmain => exec_enc_of_error henc hmain⟩

end Sys2Proof.Proofs

/-! PROOFS. The statements of spec/41_decoder.md: the decoder's answers on four bytes, the checksum after one byte
is changed, and which instruction can hand an outcome to the host. -/

namespace Sys2Proof.Machine

/-! ### The decoder on four bytes -/

/-- The checksum test on three bytes, over the naturals (R13). -/
theorem eq_sum8_three_iff (c b₀ b₁ b₂ : Byte) :
    c = sum8 [b₀, b₁, b₂] ↔ c.toNat = (b₀.toNat + b₁.toNat + b₂.toNat) % 256 := by
  rw [← BitVec.toNat_inj, sum8_toNat]
  simp [Nat.add_assoc]

/-- A valid candidate decodes to its two value bytes, high byte first (R120). -/
theorem tryDecode_of_valid {w : Vector Byte Config.IN_LEN} (h0 : w[0] = Config.HDR)
    (h3 : w[3] = sum8 [w[0], w[1], w[2]]) : tryDecode w = .ok (w[1] ++ w[2]) :=
  (tryDecode_ok_iff w _).mpr
    ⟨by rw [isInboundFrame, Bool.and_eq_true, beq_iff_eq, beq_iff_eq]; exact ⟨h0, h3⟩,
      (assembleValue_eq _ _).symm⟩

/-! ### DEC's answers -/

/-- DEC hands a decoded value over and changes nothing else (R120). -/
theorem exec_dec_of_ok {w : Vector Byte Config.IN_LEN} {v : BitVec Config.VALUE_W} (hd : tryDecode w = .ok v)
    {s : State} (hmain : Safety.MainLine s) : exec (.dec w.toList) s = .next (s.endWith (.decoded v)) := by
  simp only [exec_dec w.toList hmain, decodeCandidate, candidateOf_toList, hd]

/-- DEC hands a decoder error over and changes nothing else (R120). -/
theorem exec_dec_of_error {w : Vector Byte Config.IN_LEN} {e : DecodeError} (hd : tryDecode w = .error e)
    {s : State} (hmain : Safety.MainLine s) :
    exec (.dec w.toList) s = .next (s.endWith (.decodeError e)) := by
  simp only [exec_dec w.toList hmain, decodeCandidate, candidateOf_toList, hd]

/-- DEC refuses a candidate of another length (R123). -/
theorem exec_dec_of_width {candidate : List Byte} (hl : candidate.length ≠ Config.IN_LEN) {s : State}
    (hmain : Safety.MainLine s) : exec (.dec candidate) s = .next (s.refuse .decoderWidth) := by
  simp only [exec_dec candidate hmain, decodeCandidate, candidateOf_eq_none hl]

/-! ### One byte changed -/

/-- A byte changed anywhere changes the checksum, since addition modulo 256 cancels (R125). -/
theorem sum8_ne_of_byte_ne (before behind : List Byte) {b c : Byte} (h : b ≠ c) :
    sum8 (before ++ b :: behind) ≠ sum8 (before ++ c :: behind) := by
  rw [sum8_append, sum8_append, sum8_cons, sum8_cons]
  simpa using h

/-! ### Which instruction can hand an outcome over -/

/-- The instructions that can end with an outcome. -/
def OpOutcome.Of (i : Instr) : OpOutcome → Prop
  | .done => isLifecycle i = true
  | .frame _ | .encError _ => ∃ opcode payload, i = .enc opcode payload
  | .samples _ => ∃ chunk, i.expand = .rxc chunk
  | .decoded _ | .decodeError _ => ∃ candidate, i = .dec candidate
  | .frameCheck _ => ∃ bytes, i = .outboundFrame bytes
  | .refused _ => isLifecycle i = false

/-- `t` comes from `s` by appending one outcome with which the instruction can end. -/
def Answers (i : Instr) (s t : State) : Prop :=
  ∃ o : OpOutcome, o.Of i ∧ t.outcomes = s.outcomes ++ [o]

/-- A refusal is an answer of every instruction that can be refused. -/
theorem answers_refuse {i : Instr} (hi : isLifecycle i = false) (r : RefusalReason) (s : State) :
    Answers i s (s.refuse r) := ⟨.refused r, hi, rfl⟩

theorem forRevision_answers {i : Instr} {s : State} {act : State → State} (hi : isLifecycle i = false)
    (hact : Answers i s (act s)) : Answers i s (forRevision act s) := by
  rcases forRevision_cases act s with ⟨-, h⟩ | ⟨-, h⟩
  · rwa [h]
  · exact h ▸ answers_refuse hi .otherRevision s

theorem encodeCommand_answers (opcode : BitVec Config.OPCODE_W) (payload : List Byte) (s : State) :
    Answers (.enc opcode payload) s (encodeCommand opcode payload s) := by
  rcases encodeCommand_eq opcode payload s with ⟨f, -, h⟩ | ⟨-, h⟩
  · exact h ▸ ⟨.frame f, ⟨_, _, rfl⟩, rfl⟩
  · exact h ▸ ⟨.encError .invalidPayloadLength, ⟨_, _, rfl⟩, rfl⟩

theorem decodeCandidate_answers (candidate : List Byte) (s : State) :
    Answers (.dec candidate) s (decodeCandidate candidate s) := by
  rcases decodeCandidate_cases candidate s with ⟨-, h⟩ | ⟨w, v, -, -, h⟩ | ⟨w, e, -, -, h⟩
  · exact h ▸ answers_refuse rfl .decoderWidth s
  · exact h ▸ ⟨.decoded v, ⟨_, rfl⟩, rfl⟩
  · exact h ▸ ⟨.decodeError e, ⟨_, rfl⟩, rfl⟩

/-- RXC, and RXB with it: the samples of the loop or the refusal RxClosed, and no error of the decoder. -/
theorem receive_answers {i : Instr} {chunk : List Byte} (hi : isLifecycle i = false)
    (hexpand : i.expand = .rxc chunk) (s : State) : Answers i s (receive chunk s) := by
  cases h : s.connOpen with
  | true => exact receive_eq_apply chunk h ▸ ⟨.samples _, ⟨chunk, hexpand⟩, rfl⟩
  | false => exact receive_closed chunk h ▸ answers_refuse hi .rxClosed s

theorem exec_outboundFrame_answers {bytes : List Byte} {s t : State}
    (h : exec (.outboundFrame bytes) s = .next t) : Answers (.outboundFrame bytes) s t := by
  obtain rfl := Host.Outcome.next.inj h
  refine forRevision_answers rfl ?_
  by_cases hl : bytes.length = Config.OUT_LEN
  · rw [if_pos hl]
    exact ⟨.frameCheck _, ⟨bytes, rfl⟩, rfl⟩
  · rw [if_neg hl]
    exact answers_refuse rfl .otherRevision s

/-- Every instruction hands its host one outcome of its own kind. -/
theorem exec_answers {i : Instr} {s t : State} (h : exec i s = .next t) : Answers i s t := by
  cases i with
  | enc opcode payload =>
    exact Host.Outcome.next.inj h ▸ forRevision_answers rfl (encodeCommand_answers opcode payload s)
  | rxc chunk => exact Host.Outcome.next.inj h ▸ forRevision_answers rfl (receive_answers rfl rfl s)
  | rxb x => exact Host.Outcome.next.inj h ▸ forRevision_answers rfl (receive_answers rfl rfl s)
  | dec candidate =>
    exact Host.Outcome.next.inj h ▸ forRevision_answers rfl (decodeCandidate_answers candidate s)
  | outboundFrame bytes => exact exec_outboundFrame_answers h
  | openConn | closeConn | reset => exact Host.Outcome.next.inj h ▸ ⟨.done, rfl, rfl⟩
  | reserved000 | reserved110 | reserved111 =>
    exact Host.Outcome.next.inj h ▸ answers_refuse rfl .reservedOp s

end Sys2Proof.Machine

namespace Sys2Proof.Proofs

open Sys2Proof.Machine

/-- Settles O14: the three answers of `tryDecode` on the four bytes, each handed over by DEC. -/
theorem decClassifiesEveryCandidate : Obligations.DecClassifiesEveryCandidate := by
  intro b₀ b₁ b₂ b₃ s hmain
  refine ⟨fun h0 => ?_, fun h0 h3 => ?_, fun h0 h3 => ?_⟩
  · exact exec_dec_of_error (w := #v[b₀, b₁, b₂, b₃]) ((tryDecode_badHeader_iff _).mpr h0) hmain
  · have hsum : b₃ ≠ sum8 [b₀, b₁, b₂] := (not_congr (eq_sum8_three_iff b₃ b₀ b₁ b₂)).mpr h3
    exact exec_dec_of_error (w := #v[b₀, b₁, b₂, b₃]) ((tryDecode_badChecksum_iff _).mpr ⟨h0, hsum⟩) hmain
  · have hsum : b₃ = sum8 [b₀, b₁, b₂] := (eq_sum8_three_iff b₃ b₀ b₁ b₂).mpr h3
    exact exec_dec_of_ok (w := #v[b₀, b₁, b₂, b₃]) (tryDecode_of_valid h0 hsum) hmain

/-- Settles O16: the synthesised checksum is the sum of the three bytes before it. -/
theorem inboundFrameRoundTrip : Obligations.InboundFrameRoundTrip := by
  intro hi lo
  have hsum : BitVec.ofNat 8 (0xFF + hi.toNat + lo.toNat) = sum8 [0xFF#8, hi, lo] :=
    (eq_sum8_three_iff _ _ _ _).mpr (BitVec.toNat_ofNat ..)
  exact tryDecode_of_valid (w := #v[0xFF#8, hi, lo, BitVec.ofNat 8 (0xFF + hi.toNat + lo.toNat)]) rfl hsum

/-- Settles O19, by cases on the index: byte 0 breaks the header, bytes 1 and 2 change the sum, and byte 3 is
no longer the sum. -/
theorem singleByteChangeDetected : Obligations.SingleByteChangeDetected := by
  intro w v i b hok hb
  obtain ⟨h0, h3⟩ := (exists_tryDecode_ok_iff w).mp ⟨v, hok⟩
  match i with
  | 0 => exact (tryDecode_badHeader_iff _).mpr (by simpa [h0] using hb)
  | 1 =>
    exact (tryDecode_badChecksum_iff _).mpr ⟨by simpa using h0,
      by simpa [h3] using sum8_ne_of_byte_ne [w[0]] [w[2]] hb.symm⟩
  | 2 =>
    exact (tryDecode_badChecksum_iff _).mpr ⟨by simpa using h0,
      by simpa [h3] using sum8_ne_of_byte_ne [w[0], w[1]] [] hb.symm⟩
  | 3 =>
    exact (tryDecode_badChecksum_iff _).mpr ⟨by simpa using h0,
      by simpa [← h3] using hb⟩

/-- Settles O21: an instruction appends one outcome of its own kind, and a decoder error is of DEC's kind. -/
theorem decoderErrorsNeverSurface : Obligations.DecoderErrorsNeverSurface := by
  intro i s t e hdec h hmem
  obtain ⟨o, hof, houtcomes⟩ := exec_answers h
  rw [houtcomes, List.mem_append, List.mem_singleton] at hmem
  rcases hmem with hearlier | rfl
  · exact hearlier
  · obtain ⟨candidate, hi⟩ := hof
    exact absurd hi (hdec candidate)

/-- Settles O15: the width test comes before every other check of the decoder. -/
theorem decoderWidthRefused : Obligations.DecoderWidthRefused :=
  fun _ _ hmain hl => exec_dec_of_width hl hmain

end Sys2Proof.Proofs

/-! PROOFS. The statements of spec/42_resync.md: the recursion of `parse` and its induction, what a chunk, a byte, a
frame or garbage in front of a stream does to it, and the RXC that gives exactly the stream's reading. -/

namespace Sys2Proof.Machine

/-! ### The recursion of `parse` -/

/-- What a consumed window takes off a stream's length, in numerals. -/
theorem length_drop_window (bytes : List Byte) : (bytes.drop Config.IN_LEN).length = bytes.length - 4 :=
  List.length_drop

/-- What a failed window takes off a stream's length, in numerals. -/
theorem length_drop_byte (bytes : List Byte) : (bytes.drop Config.DROP).length = bytes.length - 1 :=
  List.length_drop

/-- A stream without a window is residual (R147). -/
theorem parse_of_lt {bytes : List Byte} (h : bytes.length < Config.IN_LEN) : parse bytes = ([], bytes) :=
  parseWithin_of_lt _ (Nat.not_le_of_gt h)

/-- Every bound from the stream's length less 3 on gives its reading (R142). -/
theorem parseWithin_eq_parse {n : Nat} {bytes : List Byte} (hn : bytes.length - 3 ≤ n) :
    parseWithin n bytes = parse bytes :=
  parseWithin_eq_of_le _ _ _ hn (Nat.sub_le _ _)

/-- A valid window is consumed (R147). -/
theorem parse_ok {bytes : List Byte} (h : Config.IN_LEN ≤ bytes.length) {v : BitVec Config.VALUE_W}
    (hd : tryDecode (window bytes h) = .ok v) :
    parse bytes = (v :: (parse (bytes.drop Config.IN_LEN)).1, (parse (bytes.drop Config.IN_LEN)).2) := by
  have hn : bytes.length - 3 ≤ bytes.length + 1 := by omega
  have htail : (bytes.drop Config.IN_LEN).length - 3 ≤ bytes.length := by rw [length_drop_window]; omega
  rw [← parseWithin_eq_parse hn, parseWithin_ok _ h hd, parseWithin_eq_parse htail]

/-- Any other window drops one byte (R147). -/
theorem parse_error {bytes : List Byte} (h : Config.IN_LEN ≤ bytes.length) {e : DecodeError}
    (hd : tryDecode (window bytes h) = .error e) : parse bytes = parse (bytes.drop Config.DROP) := by
  have hn : bytes.length - 3 ≤ bytes.length + 1 := by omega
  have htail : (bytes.drop Config.DROP).length - 3 ≤ bytes.length := by rw [length_drop_byte]; omega
  rw [← parseWithin_eq_parse hn, parseWithin_error _ h hd, parseWithin_eq_parse htail]

/-- Induction over a stream as `parse` reads it: no window left, a window consumed, or one byte dropped. -/
theorem parse_induction {motive : List Byte → Prop}
    (short : ∀ bytes, bytes.length < Config.IN_LEN → motive bytes)
    (consume : ∀ bytes (h : Config.IN_LEN ≤ bytes.length) v, tryDecode (window bytes h) = .ok v →
      motive (bytes.drop Config.IN_LEN) → motive bytes)
    (drop : ∀ bytes (h : Config.IN_LEN ≤ bytes.length) e, tryDecode (window bytes h) = .error e →
      motive (bytes.drop Config.DROP) → motive bytes)
    (bytes : List Byte) : motive bytes := by
  by_cases h : Config.IN_LEN ≤ bytes.length
  · have h4 : 4 ≤ bytes.length := h
    cases hd : tryDecode (window bytes h) with
    | ok v => exact consume bytes h v hd (parse_induction short consume drop _)
    | error e => exact drop bytes h e hd (parse_induction short consume drop _)
  · exact short bytes (Nat.lt_of_not_le h)
termination_by bytes.length
decreasing_by
  · rw [length_drop_byte]; omega
  · rw [length_drop_window]; omega

/-! ### The position walk, the drain steps and the residual -/

/-- The position walk reads the rest of the stream as `parse` does, position by position (R147). -/
theorem walkWithin_eq (n : Nat) (bytes : List Byte) (p : Nat) :
    ((walkWithin n bytes p).1, bytes.drop (walkWithin n bytes p).2) = parseWithin n (bytes.drop p) := by
  induction n generalizing p with
  | zero => rfl
  | succ n ih =>
    have hfits : Config.IN_LEN ≤ (bytes.drop p).length ↔ p + Config.IN_LEN ≤ bytes.length := by
      rw [List.length_drop]
      simp only [Config.IN_LEN]
      omega
    by_cases h : p + Config.IN_LEN ≤ bytes.length
    · have hfit := hfits.mpr h
      cases hv : isInboundFrame (window (bytes.drop p) hfit) with
      | true =>
        have hd := (tryDecode_ok_iff _ _).mpr ⟨hv, rfl⟩
        rw [parseWithin_ok n hfit hd, List.drop_drop, ← ih]
        simp only [walkWithin, dif_pos h, hv, if_true]
      | false =>
        obtain ⟨e, hd⟩ := tryDecode_error_of_invalid hv
        rw [parseWithin_error n hfit hd, List.drop_drop, ← ih]
        simp only [walkWithin, dif_pos h, hv, Bool.false_eq_true, if_false]
    · rw [parseWithin_of_lt _ (mt hfits.mp h)]
      simp only [walkWithin, dif_neg h]

theorem walk_eq_parse (bytes : List Byte) : walk bytes = parse bytes :=
  walkWithin_eq bytes.length bytes 0

theorem drainActionsWithin_of_lt (n : Nat) {bytes : List Byte} (h : ¬Config.IN_LEN ≤ bytes.length) :
    drainActionsWithin n bytes = [] := by
  cases n with
  | zero => rfl
  | succ n => simp only [drainActionsWithin, dif_neg h]

theorem drainActionsWithin_ok (n : Nat) {bytes : List Byte} (h : Config.IN_LEN ≤ bytes.length)
    {v : BitVec Config.VALUE_W} (hd : tryDecode (window bytes h) = .ok v) :
    drainActionsWithin (n + 1) bytes = .consume v :: drainActionsWithin n (bytes.drop Config.IN_LEN) := by
  simp only [drainActionsWithin, dif_pos h, hd]

theorem drainActionsWithin_error (n : Nat) {bytes : List Byte} (h : Config.IN_LEN ≤ bytes.length)
    {e : DecodeError} (hd : tryDecode (window bytes h) = .error e) :
    drainActionsWithin (n + 1) bytes = .drop e :: drainActionsWithin n (bytes.drop Config.DROP) := by
  simp only [drainActionsWithin, dif_pos h, hd]

/-- Every byte is consumed in a sample, dropped by a drain step, or left, whatever the bound (R156). -/
theorem parseWithin_conserves (n : Nat) (bytes : List Byte) :
    bytes.length = 4 * (parseWithin n bytes).1.length +
      (drainActionsWithin n bytes).countP DrainAction.isDrop + (parseWithin n bytes).2.length := by
  induction n generalizing bytes with
  | zero => simp [drainActionsWithin]
  | succ n ih =>
    by_cases h : Config.IN_LEN ≤ bytes.length
    · have h4 : 4 ≤ bytes.length := h
      cases hd : tryDecode (window bytes h) with
      | ok v =>
        have htail := ih (bytes.drop Config.IN_LEN)
        rw [length_drop_window] at htail
        simp only [parseWithin_ok n h hd, drainActionsWithin_ok n h hd, List.length_cons,
          List.countP_cons, DrainAction.isDrop, Bool.false_eq_true, if_false]
        omega
      | error e =>
        have htail := ih (bytes.drop Config.DROP)
        rw [length_drop_byte] at htail
        simp only [parseWithin_error n h hd, drainActionsWithin_error n h hd, List.countP_cons,
          DrainAction.isDrop, if_true]
        omega
    · simp [parseWithin_of_lt _ h, drainActionsWithin_of_lt _ h]

/-- Each drain step takes a byte at least, and none runs on 3 bytes or fewer (R142). -/
theorem drainActionsWithin_length_le (n : Nat) (bytes : List Byte) :
    (drainActionsWithin n bytes).length ≤ bytes.length - 3 := by
  induction n generalizing bytes with
  | zero => exact Nat.zero_le _
  | succ n ih =>
    by_cases h : Config.IN_LEN ≤ bytes.length
    · have h4 : 4 ≤ bytes.length := h
      cases hd : tryDecode (window bytes h) with
      | ok v =>
        have htail := ih (bytes.drop Config.IN_LEN)
        rw [length_drop_window] at htail
        rw [drainActionsWithin_ok n h hd, List.length_cons]
        omega
      | error e =>
        have htail := ih (bytes.drop Config.DROP)
        rw [length_drop_byte] at htail
        rw [drainActionsWithin_error n h hd, List.length_cons]
        omega
    · rw [drainActionsWithin_of_lt _ h]
      exact Nat.zero_le _

/-- What is left of a stream is its end (R143). -/
theorem parse_residual_suffix (bytes : List Byte) : (parse bytes).2 <:+ bytes := by
  induction bytes using parse_induction with
  | short bytes h => rw [parse_of_lt h]
  | consume bytes h v hd ih => rw [parse_ok h hd]; exact ih.trans (List.drop_suffix _ _)
  | drop bytes h e hd ih => rw [parse_error h hd]; exact ih.trans (List.drop_suffix _ _)

/-! ### Chunks and single bytes -/

/-- A stream received in two parts is read as the whole: the second part goes behind the residual of the
first (R148). -/
theorem parse_append (bytes more : List Byte) :
    parse (bytes ++ more) = ((parse bytes).1 ++ (parse ((parse bytes).2 ++ more)).1,
      (parse ((parse bytes).2 ++ more)).2) := by
  induction bytes using parse_induction with
  | short bytes h => rw [parse_of_lt h, List.nil_append]
  | consume bytes h v hd ih =>
    have h' : Config.IN_LEN ≤ (bytes ++ more).length := h.trans (by simp)
    rw [parse_ok h' (window_append bytes more h h' ▸ hd), List.drop_append_of_le_length h, ih, parse_ok h hd,
      List.cons_append]
  | drop bytes h e hd ih =>
    have h' : Config.IN_LEN ≤ (bytes ++ more).length := h.trans (by simp)
    rw [parse_error h' (window_append bytes more h h' ▸ hd),
      List.drop_append_of_le_length (Nat.le_trans (by decide) h), ih, parse_error h hd]

section ByteSerial

variable {w : List Byte} {x : Byte}

/-- A register that the byte does not fill keeps it (R149). -/
theorem rxByte_of_lt (h : (w ++ [x]).length < Config.IN_LEN) : rxByte w x = (none, w ++ [x]) := by
  simp only [rxByte, dif_neg (Nat.not_le_of_gt h)]

/-- A valid window empties the register (R149). -/
theorem rxByte_ok (h : Config.IN_LEN ≤ (w ++ [x]).length) {v : BitVec Config.VALUE_W}
    (hd : tryDecode (window (w ++ [x]) h) = .ok v) : rxByte w x = (some v, []) := by
  simp only [rxByte, dif_pos h, hd]

/-- Any other window loses its first byte (R149). -/
theorem rxByte_error (h : Config.IN_LEN ≤ (w ++ [x]).length) {e : DecodeError}
    (hd : tryDecode (window (w ++ [x]) h) = .error e) : rxByte w x = (none, (w ++ [x]).drop Config.DROP) := by
  simp only [rxByte, dif_pos h, hd]

/-- One `RxByte` on a register of at most 3 bytes reads the stream of the register and the byte (R149). -/
theorem parse_append_byte (hw : w.length < Config.IN_LEN) :
    parse (w ++ [x]) = ((rxByte w x).1.toList, (rxByte w x).2) := by
  have hw4 : w.length < 4 := hw
  have hlen : (w ++ [x]).length = w.length + 1 := List.length_append
  by_cases h : Config.IN_LEN ≤ (w ++ [x]).length
  · cases hd : tryDecode (window (w ++ [x]) h) with
    | ok v =>
      have hrest : (w ++ [x]).drop Config.IN_LEN = [] := List.drop_of_length_le (by omega)
      rw [parse_ok h hd, hrest, rxByte_ok h hd]
      rfl
    | error e =>
      have hrest : ((w ++ [x]).drop Config.DROP).length < Config.IN_LEN := by
        rw [length_drop_byte, hlen]; exact hw
      rw [parse_error h hd, parse_of_lt hrest, rxByte_error h hd]
      rfl
  · have hlt := Nat.lt_of_not_le h
    rw [parse_of_lt hlt, rxByte_of_lt hlt]
    rfl

theorem rxByte_register_length_lt (hw : w.length < Config.IN_LEN) :
    (rxByte w x).2.length < Config.IN_LEN := by
  have hres := parse_residual_length_lt (w ++ [x])
  rwa [parse_append_byte hw] at hres

end ByteSerial

/-- The byte-serial machine reads the stream of its register and the chunk (R149). -/
theorem rxBytes_eq_parse (w chunk : List Byte) (hw : w.length < Config.IN_LEN) :
    rxBytes w chunk = parse (w ++ chunk) := by
  induction chunk generalizing w with
  | nil => rw [List.append_nil, parse_of_lt hw, rxBytes]
  | cons x chunk ih =>
    rw [List.append_cons, parse_append, parse_append_byte hw, ← ih _ (rxByte_register_length_lt hw), rxBytes]

/-! ### Frames and what stands before them -/

/-- A valid frame in front gives its value, and reading goes on right after it (R151). -/
theorem parse_frame_append {w : Vector Byte Config.IN_LEN} {v : BitVec Config.VALUE_W}
    (hd : tryDecode w = .ok v) (rest : List Byte) :
    parse (w.toList ++ rest) = (v :: (parse rest).1, (parse rest).2) := by
  have h : Config.IN_LEN ≤ (w.toList ++ rest).length := by simp
  rw [parse_ok h (window_toList_append w rest h ▸ hd), List.drop_left' w.length_toList]

/-- A first byte whose window is no valid frame is dropped (R141). -/
theorem parse_cons_of_invalid {b : Byte} {tail : List Byte} (h : Config.IN_LEN ≤ (b :: tail).length)
    (hinvalid : isInboundFrame (window (b :: tail) h) = false) : parse (b :: tail) = parse tail := by
  obtain ⟨e, hd⟩ := tryDecode_error_of_invalid hinvalid
  exact parse_error h hd

/-- The candidate at the front of a stream is its window. -/
theorem candidateOf_take {bytes : List Byte} (h : Config.IN_LEN ≤ bytes.length) :
    candidateOf (bytes.take Config.IN_LEN) = some (window bytes h) := by
  rw [← window_toList bytes h, candidateOf_toList]

/-- Bytes at which no valid window starts are dropped (R151 (a)). -/
theorem parse_append_of_no_frame {before tail : List Byte} (htail : Config.IN_LEN ≤ tail.length)
    (hnone : ∀ q u, q < before.length →
      candidateOf (((before ++ tail).drop q).take Config.IN_LEN) = some u → isInboundFrame u = false) :
    parse (before ++ tail) = parse tail := by
  induction before with
  | nil => rfl
  | cons b before ih =>
    have h : Config.IN_LEN ≤ (b :: (before ++ tail)).length := htail.trans (by simp; omega)
    have hfirst := hnone 0 _ (Nat.zero_lt_succ _) (candidateOf_take h)
    rw [List.cons_append, parse_cons_of_invalid h hfirst]
    exact ih fun q u hq hu => hnone (q + 1) u (Nat.succ_lt_succ hq) hu

/-- Bytes other than the header are dropped (R151 (c)). -/
theorem parse_append_of_headerless {garbage tail : List Byte} (htail : Config.IN_LEN ≤ tail.length)
    (hgarbage : Config.HDR ∉ garbage) : parse (garbage ++ tail) = parse tail := by
  induction garbage with
  | nil => rfl
  | cons b garbage ih =>
    obtain ⟨hb, hgarbage⟩ := not_or.mp (mt List.mem_cons.mpr hgarbage)
    have h : Config.IN_LEN ≤ (b :: (garbage ++ tail)).length := htail.trans (by simp; omega)
    have hinvalid : isInboundFrame (window (b :: (garbage ++ tail)) h) = false := by
      have hfirst : (window (b :: (garbage ++ tail)) h)[0] = b := rfl
      rw [isInboundFrame, hfirst, beq_false_of_ne (Ne.symm hb), Bool.false_and]
    rw [List.cons_append, parse_cons_of_invalid h hinvalid, ih hgarbage]

/-- Back-to-back valid frames are read whole and in order (R151 (b)). -/
theorem parse_frames {frames : List (Vector Byte Config.IN_LEN)} {values : List (BitVec Config.VALUE_W)}
    (hvalid : frames.map tryDecode = values.map Except.ok) :
    parse (frames.map Vector.toList).flatten = (values, []) := by
  induction frames generalizing values with
  | nil =>
    obtain rfl : values = [] := List.map_eq_nil_iff.mp hvalid.symm
    rfl
  | cons w frames ih =>
    obtain ⟨v, values, rfl, hv, hvalues⟩ := List.map_eq_cons_iff.mp hvalid.symm
    rw [List.map_cons, List.flatten_cons, parse_frame_append hv.symm, ih hvalues.symm]

/-- The window of one byte and the first bytes of a frame is valid only in the case of R151 (e). -/
theorem isInboundFrame_shifted_iff (g hi lo : Byte) :
    isInboundFrame #v[g, Config.HDR, hi, lo] = true ↔ g = Config.HDR ∧ lo = hi - 2 := by
  have hsum : sum8 [Config.HDR, Config.HDR, hi] = hi - 2 := by
    simp only [sum8_cons, sum8_nil]
    bv_omega
  rw [isInboundFrame, Bool.and_eq_true, beq_iff_eq, beq_iff_eq]
  refine and_congr_right fun hg : g = Config.HDR => ?_
  change lo = sum8 [g, Config.HDR, hi] ↔ lo = hi - 2
  rw [hg, hsum]

/-- The repeated frame `FF 01 FF FF` read one byte early gives a wrong value each time, and the reading never
comes back into step (R152 (c)). -/
theorem parse_misaligned_frames (k : Nat) :
    parse (0xFF :: (List.replicate k [0xFF, 0x01, 0xFF, 0xFF]).flatten) =
      (List.replicate k 0xFF01#16, [0xFF]) := by
  induction k with
  | zero => rfl
  | succ k ih =>
    have hshift : (0xFF :: (List.replicate (k + 1) [0xFF, 0x01, 0xFF, 0xFF]).flatten : List Byte) =
        (#v[0xFF, 0xFF, 0x01, 0xFF] : Vector Byte Config.IN_LEN).toList ++
          0xFF :: (List.replicate k [0xFF, 0x01, 0xFF, 0xFF]).flatten := rfl
    have hd : tryDecode #v[0xFF, 0xFF, 0x01, 0xFF] = .ok 0xFF01#16 := by decide
    rw [hshift, parse_frame_append hd, ih]
    rfl

/-! ### RXC -/

/-- RXC on an open connection, with the loop written as the stream reading (R147). -/
theorem exec_rxc_open (chunk : List Byte) {s : State} (hmain : Safety.MainLine s) (hopen : s.connOpen = true) :
    exec (.rxc chunk) s = .next ((Effect.receives chunk).apply s) := by
  rw [exec_rxc chunk hmain, receive_eq_apply chunk hopen]

/-- What RXC hands over and leaves, for a stream whose reading is known. -/
theorem exec_rxc_of_parse {chunk : List Byte} {s : State} (hmain : Safety.MainLine s) (hopen : s.connOpen = true)
    {values : List (BitVec Config.VALUE_W)} {residual : List Byte}
    (hparse : parse (s.buf ++ chunk) = (values, residual)) :
    ∃ (t : State) (xs : List Sample), exec (.rxc chunk) s = .next t ∧
      t.outcomes = s.outcomes ++ [.samples xs] ∧ xs.map Sample.value = values ∧ t.buf = residual := by
  refine ⟨_, _, exec_rxc_open chunk hmain hopen, rfl, ?_, ?_⟩
  · rw [stamped_map_value, hparse]
  · exact congrArg Prod.snd hparse

/-- The same from an empty buffer, where the chunk is the stream. -/
theorem exec_rxc_of_parse_chunk {chunk : List Byte} {s : State} (hmain : Safety.MainLine s)
    (hopen : s.connOpen = true) (hbuf : s.buf = []) {values : List (BitVec Config.VALUE_W)}
    {residual : List Byte} (hparse : parse chunk = (values, residual)) :
    ∃ (t : State) (xs : List Sample), exec (.rxc chunk) s = .next t ∧
      t.outcomes = s.outcomes ++ [.samples xs] ∧ xs.map Sample.value = values ∧ t.buf = residual :=
  exec_rxc_of_parse hmain hopen (by rw [hbuf, List.nil_append, hparse])

end Sys2Proof.Machine

namespace Sys2Proof.Safety

open Sys2Proof.Machine

/-- One RXC record of a stream taken up: the chunk is received, and the other records are left. -/
theorem step_rxcMoves_cons {chunk : List Byte} {chunks : List (List Byte)} {s : State}
    (hpending : s.pending = rxcMoves (chunk :: chunks)) (hmain : MainLine s) (hopen : s.connOpen = true) :
    step s = .next ((Effect.receives chunk).apply (s.afterMove (rxcMoves chunks))) := by
  rw [step_of_decodeMove_ok hpending rfl (decodeMove_encode (.rxc chunk))]
  exact exec_rxc_open chunk hmain hopen

/-- The records of a stream's chunks, run from any quiescent buffer, give the reading of the whole stream
(R148). -/
theorem run_rxcMoves (chunks : List (List Byte)) {s : State} (hpending : s.pending = rxcMoves chunks)
    (hmain : MainLine s) (hopen : s.connOpen = true) (hquiet : Quiescent s) :
    ∃ (t : State) (results : List OpOutcome), run chunks.length s = .next t ∧
      t.outcomes = s.outcomes ++ results ∧ results.length = chunks.length ∧
      results.flatMap valuesOf = (parse (s.buf ++ chunks.flatten)).1 ∧
      t.buf = (parse (s.buf ++ chunks.flatten)).2 ∧ t.connOpen = true := by
  induction chunks generalizing s with
  | nil =>
    have hparse : parse (s.buf ++ [].flatten) = ([], s.buf) := by
      rw [List.flatten_nil, List.append_nil, parse_of_lt hquiet]
    exact ⟨s, [], rfl, (List.append_nil _).symm, rfl, by rw [hparse]; rfl, by rw [hparse], hopen⟩
  | cons chunk chunks ih =>
    have hstep := step_rxcMoves_cons hpending hmain hopen
    obtain ⟨t, results, hrun, houtcomes, hlength, hvalues, hbuf, hopen'⟩ :=
      ih (s := (Effect.receives chunk).apply (s.afterMove (rxcMoves chunks))) rfl hmain hopen
        (parse_residual_length_lt _)
    have hparse := parse_append (s.buf ++ chunk) chunks.flatten
    rw [List.append_assoc, ← List.flatten_cons] at hparse
    refine ⟨t, (Effect.receives chunk).outcome s :: results, ?_, ?_, ?_, ?_, ?_, hopen'⟩
    · rw [List.length_cons, run_succ_of_next _ hstep, hrun]
    · rw [houtcomes, List.append_cons]; rfl
    · rw [List.length_cons, List.length_cons, hlength]
    · rw [List.flatMap_cons, hvalues, hparse]
      exact congrArg (· ++ _) (stamped_map_value _ _)
    · rw [hbuf, hparse]; rfl

end Sys2Proof.Safety

namespace Sys2Proof.Proofs

open Sys2Proof.Machine
open Sys2Proof.Safety

/-- Settles O24, by induction on the chunks from any quiescent buffer. -/
theorem chunkingNeverChangesTheValues : Obligations.ChunkingNeverChangesTheValues :=
  fun chunks s hmain hopen hquiet =>
    run_rxcMoves chunks (s := s.afterMove (rxcMoves chunks)) rfl hmain hopen hquiet

/-- Settles O22: the recursion of `parse` does not see its bound, the drain loop is that recursion, and the
position walk is it on the rest of the stream. -/
theorem rxcComputesParse : Obligations.RxcComputesParse := by
  refine ⟨fun bytes => ?_, fun chunk s hmain hopen => exec_rxc_of_parse hmain hopen rfl, walk_eq_parse⟩
  by_cases h : 4 ≤ bytes.length
  · rw [dif_pos h]
    cases hd : tryDecode (window bytes h) with
    | ok v => exact parse_ok h hd
    | error e => exact parse_error h hd
  · rw [dif_neg h]
    exact parse_of_lt (Nat.lt_of_not_le h)

/-- Settles O23: the whole effect of a received chunk. -/
theorem rxcNextState : Obligations.RxcNextState :=
  fun chunk _ hmain hopen => exec_rxc_open chunk hmain hopen

/-- Settles O25: the byte-serial machine reads the same stream, and its register is a residual. -/
theorem byteSerialMachineRefinesRxc : Obligations.ByteSerialMachineRefinesRxc := by
  refine ⟨fun chunk s hmain hopen hquiet => ?_, fun w x hw => ?_⟩
  · exact exec_rxc_of_parse hmain hopen (rxBytes_eq_parse s.buf chunk hquiet).symm
  · exact Nat.le_of_lt_succ (rxByte_register_length_lt (Nat.lt_succ_of_le hw))

/-- Settles O26: the one-byte chunk's reading is one `RxByte`, whose window is complete only with 3 bytes
before. -/
theorem rxbIsOneRxByte : Obligations.RxbIsOneRxByte := by
  intro x s hmain hopen hquiet
  have hlen : (s.buf ++ [x]).length = s.buf.length + 1 := List.length_append
  refine ⟨exec_rxb x s, ?_, fun h2 => rxByte_of_lt ?_, fun h3 => ?_⟩
  · rw [exec_rxb, rxcNextState [x] s hmain hopen, parse_append_byte hquiet]
  · rw [hlen]
    exact Nat.succ_lt_succ (Nat.lt_succ_of_le h2)
  · have h : Config.IN_LEN ≤ (s.buf ++ [x]).length := by rw [hlen, h3]
    cases hd : tryDecode (window (s.buf ++ [x]) h) with
    | ok v => exact .inl ⟨v, rxByte_ok h hd⟩
    | error e => exact .inr (rxByte_error h hd)

/-- Settles O27: the loop is the bounded reading, and bytes are conserved whatever the bound. -/
theorem drainLoopTerminates : Obligations.DrainLoopTerminates := by
  intro s out
  refine ⟨fun n hn => ?_, drainActionsWithin_length_le _ _, ?_⟩
  · rw [drain_eq, drain_eq, parseWithin_eq_of_le n (s.buf.length - 3) s.buf hn (Nat.le_refl _)]
  · have hconserved := parseWithin_conserves s.buf.length s.buf
    rw [drain_eq, List.length_append, stamped_length]
    omega

/-- Settles O28: what RXC leaves is the residual of a stream. -/
theorem rxcLeavesAShortSuffix : Obligations.RxcLeavesAShortSuffix :=
  fun chunk s hmain hopen => ⟨_, exec_rxc_open chunk hmain hopen,
    Nat.le_of_lt_succ (parse_residual_length_lt _), parse_residual_suffix (s.buf ++ chunk)⟩

/-- Settles O31: the bytes of the buffer and the chunk are conserved by the reading. -/
theorem rxcConservesBytes : Obligations.RxcConservesBytes := by
  intro chunk s hmain hopen
  obtain ⟨t, xs, hexec, houtcomes, hvalues, hbuf⟩ :=
    exec_rxc_of_parse (chunk := chunk) hmain hopen rfl
  refine ⟨t, xs, hexec, houtcomes, ?_⟩
  rw [← List.length_append, hbuf, ← List.length_map Sample.value, hvalues]
  exact parseWithin_conserves _ _

/-- Settles O32: the bytes before the frame are dropped and the frame is consumed. -/
theorem rxcRecoversTheNextFrame : Obligations.RxcRecoversTheNextFrame := by
  intro before rest chunk w v s hmain hopen hstream hd hnone
  rw [List.append_assoc] at hstream
  refine exec_rxc_of_parse hmain hopen ?_
  rw [hstream] at hnone ⊢
  rw [parse_append_of_no_frame (by simp) hnone, parse_frame_append hd]

/-- Settles O33, by induction on the frames. -/
theorem rxcStaysAlignedOnValidFrames : Obligations.RxcStaysAlignedOnValidFrames :=
  fun _ _ _ hmain hopen hbuf hvalid => exec_rxc_of_parse_chunk hmain hopen hbuf (parse_frames hvalid)

/-- Settles O34: no window that starts in the garbage has the header, and the frame is read after it. -/
theorem headerlessRunCostsItself : Obligations.HeaderlessRunCostsItself := by
  intro garbage w v s hmain hopen hbuf hgarbage hd
  refine exec_rxc_of_parse_chunk hmain hopen hbuf ?_
  rw [parse_append_of_headerless (by simp) hgarbage, ← List.append_nil w.toList, parse_frame_append hd]
  rfl

/-- Settles O35, by cases on whether the window that starts at the garbage byte is valid. -/
theorem oneGarbageByteBeforeAFrame : Obligations.OneGarbageByteBeforeAFrame := by
  intro g hi lo cs s hmain hopen hbuf hcs
  by_cases hfalse : g = 0xFF#8 ∧ lo = hi - 2
  · have hd : tryDecode #v[g, Config.HDR, hi, lo] = .ok (Config.HDR ++ hi) :=
      (tryDecode_ok_iff _ _).mpr
        ⟨(isInboundFrame_shifted_iff g hi lo).mpr hfalse, (assembleValue_eq _ _).symm⟩
    obtain ⟨t, xs, hexec, houtcomes, hread⟩ :=
      exec_rxc_of_parse_chunk hmain hopen hbuf (parse_frame_append hd [cs])
    exact ⟨t, xs, hexec, houtcomes, fun h => absurd hfalse h, fun _ => hread⟩
  · have hinvalid : isInboundFrame #v[g, Config.HDR, hi, lo] = false :=
      Bool.eq_false_iff.mpr (mt (isInboundFrame_shifted_iff g hi lo).mp hfalse)
    have hd : tryDecode #v[0xFF#8, hi, lo, cs] = .ok (hi ++ lo) :=
      tryDecode_of_valid (w := #v[0xFF#8, hi, lo, cs]) rfl ((eq_sum8_three_iff _ _ _ _).mpr hcs)
    have hparse : parse [g, 0xFF, hi, lo, cs] = ([hi ++ lo], []) :=
      (parse_cons_of_invalid (tail := [0xFF, hi, lo, cs]) (Nat.le_succ 4) hinvalid).trans (parse_frame_append hd [])
    obtain ⟨t, xs, hexec, houtcomes, hread⟩ := exec_rxc_of_parse_chunk hmain hopen hbuf hparse
    exact ⟨t, xs, hexec, houtcomes, fun _ => hread, fun h => absurd h hfalse⟩

/-- Settles O36: the streams of (a) and (b) evaluated, and (c) by induction on the number of frames. -/
theorem falseLocksAreReproduced : Obligations.FalseLocksAreReproduced := by
  intro s hmain hopen hbuf
  refine ⟨?_, ?_, by decide, fun k => ?_⟩
  · exact exec_rxc_of_parse_chunk hmain hopen hbuf (by decide)
  · exact exec_rxc_of_parse_chunk hmain hopen hbuf (by decide)
  · exact exec_rxc_of_parse_chunk hmain hopen hbuf (parse_misaligned_frames k)

/-- Settles O29: a quiescent buffer holds no window. -/
theorem emptyChunkChangesNothing : Obligations.EmptyChunkChangesNothing := by
  intro s hmain hopen hquiet
  rw [rxcNextState [] s hmain hopen, List.append_nil, parse_of_lt hquiet]
  rfl

/-- Settles O30: the connection flag is tested before the chunk is looked at. -/
theorem rxcWhileClosedRefused : Obligations.RxcWhileClosedRefused := by
  intro chunk x s hmain hclosed
  have hrefused (bytes : List Byte) : exec (.rxc bytes) s = .next (s.refuse .rxClosed) := by
    rw [exec_rxc bytes hmain, receive_closed bytes hclosed]
  exact ⟨hrefused chunk, hrefused [x]⟩

end Sys2Proof.Proofs

/-! PROOFS. The statements of spec/43_connection.md: what OPEN, CLOSE and RESET write, and that an RXC after an
OPEN answers as if no byte had come before it. -/

namespace Sys2Proof.Machine

/-- A connection opened or closed keeps the block on the main line. -/
theorem mainLine_apply_connects (isOpen : Bool) {s : State} (hmain : Safety.MainLine s) :
    Safety.MainLine ((Effect.connects isOpen).apply s) := by
  rw [Safety.MainLine, Effect.apply_fwRevision, hmain]

/-- RXC behind an OPEN reads the chunk alone: the new connection is open and its buffer empty, whatever the old
one held (spec/43_connection.md R170, R173). -/
theorem exec_open_then_rxc (chunk : List Byte) {s : State} (hmain : Safety.MainLine s) :
    ∃ (u v : State) (xs : List Sample), exec .openConn s = .next u ∧ exec (.rxc chunk) u = .next v ∧
      v.outcomes = u.outcomes ++ [.samples xs] ∧
      xs.map Sample.value = (parse chunk).1 ∧ v.buf = (parse chunk).2 := by
  obtain ⟨v, xs, hrxc⟩ :=
    exec_rxc_of_parse_chunk (chunk := chunk) (mainLine_apply_connects true hmain) rfl rfl rfl
  exact ⟨_, v, xs, rfl, hrxc⟩

end Sys2Proof.Machine

namespace Sys2Proof.Proofs

open Sys2Proof.Machine
open Sys2Proof.Safety

/-- Settles O41: the first operation keeps the main line, and the OPEN behind it starts an empty buffer. -/
theorem pendingBytesLostAtReopen : Obligations.PendingBytesLostAtReopen := by
  refine ⟨fun i chunk s hmain hi => ?_, fun chunk s hmain => exec_open_then_rxc chunk hmain⟩
  obtain ⟨isOpen, hexec⟩ := exec_lifecycle hi
  obtain ⟨u, v, xs, hreopened⟩ := exec_open_then_rxc chunk (mainLine_apply_connects isOpen hmain)
  exact ⟨_, u, v, xs, hexec s, hreopened⟩

/-- Settles O37: what OPEN writes does not depend on the connection it finds. -/
theorem openStartsAnEmptyBuffer : Obligations.OpenStartsAnEmptyBuffer := fun _ => rfl

/-- Settles O38: CLOSE hands over no sample, whatever the buffer held. -/
theorem closeDiscardsTheBuffer : Obligations.CloseDiscardsTheBuffer := fun _ => rfl

/-- Settles O39: R31's two values are those that RESET writes. -/
theorem resetGivesThePowerOnState : Obligations.ResetGivesThePowerOnState := by
  intro s
  obtain ⟨hconnOpen, hbuf⟩ := resetStateIsTheSpecs
  rw [hconnOpen, hbuf]
  rfl

end Sys2Proof.Proofs

/-! PROOFS. The statements of spec/60_exceptions.md: the status codes, a refusal's effect and its mark, and the
host that keeps its duties, whose every move has one of five effects. -/

namespace Sys2Proof.Machine

/-! ### Refusals (R209) -/

/-- No effect but a refusal ends in one. -/
theorem Effect.eq_refuses_of_outcome {e : Effect} {s : State} {r : RefusalReason}
    (h : e.outcome s = .refused r) : e = .refuses r := by
  cases e with
  | ends o ho => obtain rfl : o = .refused r := h; cases ho
  | refuses r' => cases h; rfl
  | receives chunk => cases h
  | connects isOpen => cases h

/-- A move keeps the run's mark, however it ends. -/
theorem EndsWith.keeps_mark {s t : State} {o : OpOutcome} (hend : EndsWith s t o)
    (hmark : s.refusalMark = true) : t.refusalMark = true := by
  rw [hend.refusalMark, hmark, Bool.true_or]

end Sys2Proof.Machine

namespace Sys2Proof.Safety

open Sys2Proof.Machine

@[simp] theorem arch_refuse (r : RefusalReason) (s : State) : arch (s.refuse r) = arch s := rfl

/-- A refusal is no output of the block (R240). -/
@[simp] theorem observe_refuse_outputs (r : RefusalReason) (s : State) :
    (observe (s.refuse r)).outputs = (observe s).outputs := by
  simp [observe, output]

/-! ### The moves of a host that keeps its duties (R215) -/

/-- What a move that keeps the host's duties does to the block, and where the host stands before and after it. -/
inductive DutifulEffect : HostSide → Effect → HostSide → Prop
  /-- ENC with an accepted payload, at any point. -/
  | command {h : HostSide} (f : Vector Byte Config.OUT_LEN) : DutifulEffect h (.ends (.frame f) rfl) h
  /-- RESET at power-on. -/
  | powersOn (received : List (List Byte)) :
    DutifulEffect ⟨.powerOn, received⟩ (.connects false) ⟨.idle, received⟩
  /-- OPEN while no connection is open, with a stream to come. -/
  | opens (stream : List Byte) (later : List (List Byte)) :
    DutifulEffect ⟨.idle, stream :: later⟩ (.connects true) ⟨.connected, stream :: later⟩
  /-- RXC or RXB of the next part of the connection's stream. -/
  | delivers (chunk stream : List Byte) (later : List (List Byte)) :
    DutifulEffect ⟨.connected, (chunk ++ stream) :: later⟩ (.receives chunk) ⟨.connected, stream :: later⟩
  /-- CLOSE once the connection's stream is delivered. -/
  | closes (later : List (List Byte)) :
    DutifulEffect ⟨.connected, [] :: later⟩ (.connects false) ⟨.idle, later⟩

/-- The block is where its host takes it to be: on the main line, and open while the host is connected. -/
structure Attends (h : HostSide) (s : State) : Prop where
  mainLine : MainLine s
  connOpen : h.phase = .connected → s.connOpen = true

/-- The moves still to come do not matter to it. -/
theorem Attends.afterMove {h : HostSide} {s : State} (hs : Attends h s) (rest : List HostMove) :
    Attends h (s.afterMove rest) := ⟨hs.mainLine, hs.connOpen⟩

/-- An operation that keeps the duties has one of the five effects. -/
theorem exec_dutiful {h h' : HostSide} {i : Instr} {s : State} (hs : Attends h s)
    (ha : h.afterOperation i = some h') : ∃ e, exec i s = .next (e.apply s) ∧ DutifulEffect h e h' := by
  obtain ⟨phase, received⟩ := h
  obtain ⟨phase', received'⟩ := h'
  rcases HostSide.afterOperation_some ha with ⟨rfl, hphase, hafter⟩ | ⟨opcode, payload, rfl, hlen, hafter⟩ |
    ⟨rfl, hphase, hne, hafter⟩ | ⟨chunk, hexpand, hdeliver⟩ | ⟨rfl, hphase, hreceived, hphase'⟩
  · cases hphase; cases hafter
    exact ⟨_, rfl, .powersOn received⟩
  · cases hafter
    obtain ⟨f, hf, -⟩ := encodeFrame_of_le opcode payload hlen
    exact ⟨.ends (.frame f) rfl, exec_enc_of_ok hf hs.mainLine, .command f⟩
  · cases hphase; cases hafter
    obtain ⟨stream, later, rfl⟩ := List.exists_cons_of_ne_nil hne
    exact ⟨_, rfl, .opens stream later⟩
  · obtain ⟨stream, later, hphase, hreceived, hafter⟩ := HostSide.deliver_some hdeliver
    have hexec : exec i s = .next ((Effect.receives chunk).apply s) := by
      rw [← exec_expand, hexpand, exec_rxc_open chunk hs.mainLine (hs.connOpen hphase)]
    cases hphase; cases hreceived; cases hafter
    exact ⟨_, hexec, .delivers chunk stream later⟩
  · cases hphase; cases hreceived; cases hphase'
    exact ⟨_, rfl, .closes received'⟩

/-- A move that keeps the duties is a step with one of the five effects. -/
theorem step_dutiful {h h' : HostSide} {m : HostMove} {rest : List HostMove} {s : State}
    (hpending : s.pending = m :: rest) (hs : Attends h s) (ha : h.afterMove m = some h') :
    ∃ e, step s = .next (e.apply (s.afterMove rest)) ∧ DutifulEffect h e h' := by
  obtain ⟨r, i, rfl, hdecode, hoperation⟩ := HostSide.afterMove_some ha
  rw [step_of_decodeMove_ok hpending rfl hdecode]
  exact exec_dutiful (hs.afterMove rest) hoperation

section DutifulEffect

variable {h h' : HostSide} {e : Effect}

/-- A move that keeps the duties is not refused, and its ENC is not rejected. -/
theorem DutifulEffect.outcome_accepted (he : DutifulEffect h e h') (s : State) :
    (e.outcome s).isRefusal = false ∧ e.outcome s ≠ .encError .invalidPayloadLength := by
  cases he with
  | command | powersOn | opens | delivers | closes => exact ⟨rfl, nofun⟩

/-- The run's mark is as it was after a move that keeps the duties. -/
theorem DutifulEffect.apply_refusalMark (he : DutifulEffect h e h') (s : State) :
    (e.apply s).refusalMark = s.refusalMark := by
  rw [(e.apply_endsWith s).refusalMark, (he.outcome_accepted s).1, Bool.or_false]

/-- The block follows its host through a move that keeps the duties. -/
theorem DutifulEffect.attends (he : DutifulEffect h e h') {s : State} (hs : Attends h s) :
    Attends h' (e.apply s) where
  mainLine := (e.apply_fwRevision s).trans hs.mainLine
  connOpen := by
    cases he with
    | command f => exact hs.connOpen
    | delivers chunk stream later => exact hs.connOpen
    | opens stream later => exact fun _ => rfl
    | powersOn received => exact nofun
    | closes later => exact nofun

/-- Where a connected host's block is quiescent, it still is after a move that keeps the duties (R22). -/
theorem DutifulEffect.quiescent (he : DutifulEffect h e h') {s : State}
    (hquiet : h.phase = .connected → Quiescent s) : h'.phase = .connected → Quiescent (e.apply s) := by
  cases he with
  | command f => exact hquiet
  | delivers chunk stream later => exact fun _ => parse_residual_length_lt _
  | opens stream later => exact fun _ => Nat.zero_lt_succ _
  | powersOn received => exact nofun
  | closes later => exact nofun

end DutifulEffect

/-! ### Where the host of a run in progress stands -/

/-- The host stands at a connection only while the block is open. -/
theorem connOpen_of_phaseOf_connected {s : State} (h : phaseOf s = .connected) : s.connOpen = true := by
  unfold phaseOf at h
  split_ifs at h with hdone hopen
  exact hopen

/-- A move that ends otherwise than OPEN, CLOSE and RESET do leaves the host where it stands. -/
theorem phaseOf_eq_of_endsWith {s t : State} {o : OpOutcome} (hend : EndsWith s t o) (ho : o ≠ .done)
    (hopen : t.connOpen = s.connOpen) : phaseOf t = phaseOf s := by
  simp only [phaseOf, hend.outcomes, hopen, List.mem_append, List.mem_singleton, ho.symm, or_false]

/-- After OPEN, CLOSE and RESET the host stands where the new connection flag says. -/
theorem phaseOf_apply_connects (isOpen : Bool) (s : State) :
    phaseOf ((Effect.connects isOpen).apply s) = if isOpen then .connected else .idle :=
  phaseOf_of_done (List.mem_append_right _ (List.mem_singleton_self _))

/-- The standing read from the state follows the host through a move that keeps the duties. -/
theorem DutifulEffect.phaseOf_apply {h h' : HostSide} {e : Effect} (he : DutifulEffect h e h') {s : State}
    (hphase : phaseOf s = h.phase) : phaseOf (e.apply s) = h'.phase := by
  cases he with
  | command f =>
    have hend := (Effect.ends (.frame f) rfl).apply_endsWith s
    exact (phaseOf_eq_of_endsWith hend OpOutcome.noConfusion rfl).trans hphase
  | delivers chunk stream later =>
    have hend := (Effect.receives chunk).apply_endsWith s
    exact (phaseOf_eq_of_endsWith hend OpOutcome.noConfusion rfl).trans hphase
  | powersOn received => exact phaseOf_apply_connects false s
  | opens stream later => exact phaseOf_apply_connects true s
  | closes later => exact phaseOf_apply_connects false s

/-! ### The values a host has still to get -/

/-- The streams that are still to be read: while a connection is open, its pending bytes stand before the bytes
still to deliver. -/
def HostSide.unread (h : HostSide) (buf : List Byte) : List (List Byte) :=
  match h.phase, h.received with
  | .connected, stream :: later => (buf ++ stream) :: later
  | .connected, [] | .powerOn, _ | .idle, _ => h.received

/-- The values that `parse` gives of the streams still to be read (R147). -/
def HostSide.owedValues (h : HostSide) (buf : List Byte) : List (BitVec Config.VALUE_W) :=
  (h.unread buf).flatMap fun stream => (parse stream).1

/-- An open connection owes the values of its pending and undelivered bytes, and then those of the later ones. -/
theorem owedValues_connected (stream : List Byte) (later : List (List Byte)) (buf : List Byte) :
    HostSide.owedValues ⟨.connected, stream :: later⟩ buf =
      (parse (buf ++ stream)).1 ++ later.flatMap fun stream => (parse stream).1 :=
  List.flatMap_cons

/-- A quiescent buffer holds no value that was not handed over (R22). -/
theorem parse_values_of_quiescent {s : State} (hquiet : Quiescent s) : (parse (s.buf ++ [])).1 = [] := by
  rw [List.append_nil, parse_of_lt hquiet]

/-- A move that keeps the duties hands over the first of the owed values, and the others stay owed. -/
theorem DutifulEffect.owedValues {h h' : HostSide} {e : Effect} (he : DutifulEffect h e h') {s : State}
    (hquiet : h.phase = .connected → Quiescent s) :
    h.owedValues s.buf = valuesOf (e.outcome s) ++ h'.owedValues (e.apply s).buf := by
  cases he with
  | command f => rfl
  | powersOn received => rfl
  | opens stream later => rfl
  | delivers chunk stream later =>
    have hhanded : valuesOf ((Effect.receives chunk).outcome s) = (parse (s.buf ++ chunk)).1 :=
      stamped_map_value _ _
    have hleft : ((Effect.receives chunk).apply s).buf = (parse (s.buf ++ chunk)).2 := rfl
    rw [owedValues_connected, owedValues_connected, hhanded, hleft, ← List.append_assoc, parse_append,
      List.append_assoc]
  | closes later =>
    rw [owedValues_connected, parse_values_of_quiescent (hquiet rfl)]
    rfl

/-- A host that owes nothing is owed no value. -/
theorem owedValues_of_done {h : HostSide} {s : State} (hdone : h.done = true)
    (hquiet : h.phase = .connected → Quiescent s) : h.owedValues s.buf = [] := by
  obtain ⟨phase, received⟩ := h
  cases phase with
  | powerOn => cases hdone
  | idle =>
    obtain rfl : received = [] := beq_iff_eq.mp hdone
    rfl
  | connected =>
    obtain rfl : received = [[]] := beq_iff_eq.mp hdone
    rw [owedValues_connected, parse_values_of_quiescent (hquiet rfl)]
    rfl

/-- The run of a host that keeps its duties to their end refuses nothing, rejects no ENC, and hands over exactly
the values owed at its start. -/
theorem run_of_keepsDuties {moves : List HostMove} {h : HostSide} {s : State} (hpending : s.pending = moves)
    (hs : Attends h s) (hquiet : h.phase = .connected → Quiescent s) (hduties : h.keepsDuties moves = true) :
    ∃ (t : State) (results : List OpOutcome), run moves.length s = .next t ∧ t.pending = [] ∧
      t.refusalMark = s.refusalMark ∧ t.outcomes = s.outcomes ++ results ∧
      OpOutcome.encError .invalidPayloadLength ∉ results ∧
      results.flatMap valuesOf = h.owedValues s.buf := by
  induction moves generalizing h s with
  | nil =>
    exact ⟨s, [], rfl, hpending, rfl, (List.append_nil _).symm, List.not_mem_nil,
      (owedValues_of_done hduties hquiet).symm⟩
  | cons m rest ih =>
    obtain ⟨h', ha, hrest⟩ := (HostSide.keepsDuties_cons h m rest).mp hduties
    obtain ⟨e, hstep, he⟩ := step_dutiful hpending hs ha
    have hend := e.apply_endsWith (s.afterMove rest)
    obtain ⟨t, results, hrun, hended, hmark, houtcomes, haccepted, hvalues⟩ :=
      ih hend.pending (he.attends (hs.afterMove rest)) (he.quiescent hquiet) hrest
    refine ⟨t, e.outcome (s.afterMove rest) :: results, ?_, hended, ?_, ?_, ?_, ?_⟩
    · rw [List.length_cons, run_succ_of_next _ hstep, hrun]
    · rw [hmark, he.apply_refusalMark, State.afterMove_refusalMark]
    · rw [houtcomes, hend.outcomes, State.afterMove_outcomes, List.append_assoc, List.singleton_append]
    · exact List.not_mem_cons_of_ne_of_not_mem (he.outcome_accepted _).2.symm haccepted
    · rw [List.flatMap_cons, hvalues]
      exact (he.owedValues (s := s.afterMove rest) hquiet).symm

end Sys2Proof.Safety

namespace Sys2Proof.Proofs

open Sys2Proof.Machine
open Sys2Proof.Safety

/-- Settles O55: a move that keeps the duties has one of five effects, and each leaves the host standing where
the state says. -/
theorem dutifulHostIsNeverRefused : Obligations.DutifulHostIsNeverRefused := by
  rintro received s ⟨hmain, haccepted, hrejected, hduties⟩
  cases hpending : s.pending with
  | nil => exact ⟨s, received, step_of_pending_nil hpending, hmain, haccepted, hrejected, hduties⟩
  | cons m rest =>
    rw [hpending] at hduties
    obtain ⟨h', ha, hrest⟩ := (HostSide.keepsDuties_cons _ m rest).mp hduties
    obtain ⟨e, hstep, he⟩ := step_dutiful hpending ⟨hmain, connOpen_of_phaseOf_connected⟩ ha
    have hend := e.apply_endsWith (s.afterMove rest)
    have hphase : phaseOf (e.apply (s.afterMove rest)) = h'.phase := he.phaseOf_apply rfl
    refine ⟨_, h'.received, hstep, (e.apply_fwRevision _).trans hmain, ?_, ?_, ?_⟩
    · rw [accepted, he.apply_refusalMark]
      exact haccepted
    · rw [hend.outcomes]
      exact List.not_mem_append hrejected (mt List.mem_singleton.mp (he.outcome_accepted _).2.symm)
    · rw [hphase, hend.pending]
      exact hrest

/-- Settles O60, by induction on the moves: at power-on the values owed are those of all streams received. -/
theorem dutifulRunReturnsTheStreamsValues : Obligations.DutifulRunReturnsTheStreamsValues :=
  fun received _ hmain hduties =>
    run_of_keepsDuties (h := ⟨.powerOn, received⟩) rfl ⟨hmain, nofun⟩ nofun hduties

/-- Settles O44: the outcome tells that the instruction's effect is the refusal. -/
theorem refusedInstructionChangesNoState : Obligations.RefusedInstructionChangesNoState := by
  intro i s t r hexec houtcomes
  obtain ⟨e, -, rfl, -⟩ := exec_next_cases hexec
  rw [(e.apply_endsWith s).outcomes] at houtcomes
  obtain rfl := Effect.eq_refuses_of_outcome (List.singleton_inj.mp (List.append_cancel_left houtcomes))
  exact ⟨arch_refuse r s, observe_refuse_outputs r s, rfl, rfl, rfl⟩

/-- Settles O45, by cases on what the step does: nothing, a refusal, or an instruction that ends in one way. -/
theorem refusalMarkIsNeverCleared : Obligations.RefusalMarkIsNeverCleared := by
  intro s t h hmark
  rcases step_next_cases h with ⟨-, rfl⟩ | ⟨m, rest, -, -, rfl⟩ | ⟨m, rest, i, -, -, -, hexec⟩
  · exact hmark
  · rfl
  · obtain ⟨e, -, rfl, -⟩ := exec_next_cases hexec
    exact (e.apply_endsWith (s.afterMove rest)).keeps_mark hmark

/-- Settles O20, by cases on the encoder's length test and on the decoder's three answers. -/
theorem statusCodesNameTheErrors : Obligations.StatusCodesNameTheErrors := by
  refine ⟨fun opcode payload => ?_, fun w => ?_⟩
  · by_cases hlong : 12 < payload.length
    · rw [encodeFrame_of_gt opcode payload (Nat.not_le_of_gt hlong), if_pos hlong]
      rfl
    · obtain ⟨f, hf, -⟩ := encodeFrame_of_le opcode payload (Nat.le_of_not_gt hlong)
      rw [hf, if_neg hlong]
      rfl
  · rcases tryDecode_cases w with ⟨h0, h⟩ | ⟨h0, h3, h⟩ | ⟨h0, h3, h⟩
    · rw [h]
      exact (if_pos h0).symm
    · rw [h]
      exact ((if_neg (not_not.mpr h0)).trans (if_pos h3)).symm
    · rw [h]
      exact ((if_neg (not_not.mpr h0)).trans (if_neg (not_not.mpr h3))).symm

end Sys2Proof.Proofs

/-! PROOFS. The statements of spec/70_reset_and_hazards.md: the overlap as the third end of a step, and the run that
takes up one move and gives one outcome at every step. -/

namespace Sys2Proof.Machine

/-- A move that overlaps is refused, whatever its record is (R233). -/
theorem step_of_overlaps {s : State} {m : HostMove} {rest : List HostMove} (hp : s.pending = m :: rest)
    (ho : m.overlaps = true) : step s = .next ((s.afterMove rest).refuse .overlap) := by
  simp only [step, hp, ho, if_true]

/-- A step on a move that decodes takes it up and ends in one way, also where it overlaps (R14). -/
theorem step_endsWith {s : State} {m : HostMove} {rest : List HostMove} {i : Instr}
    (hp : s.pending = m :: rest) (hd : decodeMove m = .ok i) :
    ∃ t o, step s = .next t ∧ EndsWith (s.afterMove rest) t o := by
  cases ho : m.overlaps with
  | true => exact ⟨_, _, step_of_overlaps hp ho, .refuse .overlap _⟩
  | false => exact step_of_decodeMove_ok hp ho hd ▸ exec_endsWith i (s.afterMove rest)

end Sys2Proof.Machine

namespace Sys2Proof.Safety

open Sys2Proof.Machine

/-- A run over moves that all decode takes up every one of them, with one outcome each (R240). -/
theorem run_of_all_decode {moves : List HostMove} {s : State} (hpending : s.pending = moves)
    (hdecode : ∀ m ∈ moves, ∃ i, decodeMove m = .ok i) :
    ∃ t, run moves.length s = .next t ∧ t.pending = [] ∧
      t.outcomes.length = s.outcomes.length + moves.length := by
  induction moves generalizing s with
  | nil => exact ⟨s, run_zero s, hpending, rfl⟩
  | cons m rest ih =>
    obtain ⟨⟨i, hm⟩, hrest⟩ := List.forall_mem_cons.mp hdecode
    obtain ⟨u, o, hstep, hend⟩ := step_endsWith hpending hm
    obtain ⟨t, hrun, hended, hlength⟩ := ih hend.pending hrest
    refine ⟨t, (run_succ_of_next _ hstep).trans hrun, hended, ?_⟩
    rw [hlength, hend.outcomes, State.afterMove_outcomes, List.length_append, List.length_singleton,
      List.length_cons]
    omega

end Sys2Proof.Safety

namespace Sys2Proof.Proofs

open Sys2Proof.Machine
open Sys2Proof.Safety

/-- Settles O56, by induction on the moves: every one of them is taken up by one step that ends in one way. -/
theorem runAppliesEveryMove : Obligations.RunAppliesEveryMove :=
  fun _ hdecode => run_of_all_decode rfl hdecode

/-- Settles O46: a step looks for the overlap before it decodes the record. -/
theorem overlappingRecordRefused : Obligations.OverlappingRecordRefused :=
  fun _ _ _ hpending => step_of_overlaps hpending rfl

end Sys2Proof.Proofs
